-- ==== Sys2Proof/Word.lean ====
section
/-! DEFINITION. The widths of the hardware: bytes, 32-bit bus and command words, 32-byte register contents. -/

namespace Sys2Proof

/-- One byte. -/
abbrev Byte := BitVec 8

/-- A 32-bit word: a bus word, a command word, a Salsa20 word (00_scope.md R9, `BUS_BITS`, `CMD_BITS`). -/
abbrev Word := BitVec 32

/-- A 32-byte string, held as its little-endian value `LE(b)`: byte j is bits 8j+7 to 8j (00_scope.md R11). -/
abbrev Bytes32 := BitVec 256

end Sys2Proof
end

