-- ==== Sys2Proof/Machine/Fe.lean ====
section
/-! DEFINITION. The field GF(p), p = 2^255 − 19: the readings of a 32-byte string as a field element or a scalar, the
canonical encoding (00_scope.md R13) and the field operators (R14). Addition, subtraction and multiplication are
those of `Fin prime`, which are exact and reduced mod p. -/

namespace Sys2Proof.Machine

/-- p = 2^255 − 19 (00_scope.md R2). -/
def prime : Nat := 2 ^ 255 - 19

theorem prime_pos : 0 < prime := by decide

/-- A field element: a value in [0, p). -/
abbrev Fe := Fin prime

/-- The integer n as a field constant: n mod p (00_scope.md R14). -/
def feOfNat (n : Nat) : Fe := ⟨n % prime, Nat.mod_lt _ prime_pos⟩

/-- `fe(b) = (LE(b) mod 2^255) mod p`: bit 255 is discarded (00_scope.md R13). -/
def fe (b : Bytes32) : Fe := feOfNat (b.toNat % 2 ^ 255)

/-- `enc(x) = LE32(x mod p)` (00_scope.md R13). -/
def enc (x : Fe) : Bytes32 := BitVec.ofNat 256 x.val

/-- `sc(b) = LE(b)`, all 256 bits (00_scope.md R13). -/
def sc (b : Bytes32) : Nat := b.toNat

/-- The last `n` steps of a left-to-right square-and-multiply by the low `n` bits of `e`, from `acc`. -/
def fePowFrom (a : Fe) (e : Nat) : Nat → Fe → Fe
  | 0, acc => acc
  | i + 1, acc => fePowFrom a e i (if e.testBit i then acc * acc * a else acc * acc)

/-- `inv(a) = a^(p−2) mod p`, so inv(0) = 0 (00_scope.md R14; 40_field.md R104). The addition chain is not visible;
this one is 255 squarings with a multiplication at each set bit of p − 2 (log 17). -/
def feInv (a : Fe) : Fe := fePowFrom a (prime - 2) 255 (feOfNat 1)

end Sys2Proof.Machine
end

