-- ==== Sys2Proof/Machine/Curve.lean ====
section
/-! DEFINITION. The twisted Edwards curve: constants, point forms, addition, doubling, the conversions and the
fixed-base multiplication (41_edwards.md). No formula checks its inputs (R122). -/

namespace Sys2Proof.Machine

/-- The extended (Projective-4) form (10_state.md R24). -/
structure Extended where
  x : Fe
  y : Fe
  z : Fe
  t : Fe
  deriving DecidableEq, Repr

/-- The projective (Projective-3) form (10_state.md R24). -/
structure Projective where
  x : Fe
  y : Fe
  z : Fe
  deriving DecidableEq, Repr

/-- The precomputed-difference form (10_state.md R25). -/
structure Precomputed where
  yplusx : Fe
  yminusx : Fe
  xy2d : Fe
  deriving DecidableEq, Repr

/-- The curve constant d (41_edwards.md R120). -/
def curveD : Fe :=
  feOfNat 37095705934669439343138083508754565189542113879843219016388785533085940283555

/-- 2d (41_edwards.md R120). -/
def curve2D : Fe :=
  feOfNat 16295367250680780974490674513165176452449235426866156013048779062215315747161

/-- Bx (41_edwards.md R121). -/
def baseX : Fe :=
  feOfNat 15112221349535400772501151409588531511454012693041857206046113283949847762202

/-- By (41_edwards.md R121). -/
def baseY : Fe :=
  feOfNat 46316835694926478169428394003475163141307993866256225615783033603165251855960

/-- The base point in extended form, (Bx, By, 1, Bx·By) (41_edwards.md R124). -/
def basePoint : Extended := ⟨baseX, baseY, feOfNat 1, baseX * baseY⟩

/-- The neutral element in extended form, (0, 1, 1, 0) (41_edwards.md R123). -/
def neutralPoint : Extended := ⟨feOfNat 0, feOfNat 1, feOfNat 1, feOfNat 0⟩

/-- The projective reading of an extended point: T is not read (10_state.md R24). -/
def Extended.toProjective (p : Extended) : Projective := ⟨p.x, p.y, p.z⟩

/-- EADD (41_edwards.md R125). -/
def eadd (p q : Extended) : Extended :=
  let a := (p.y - p.x) * (q.y - q.x)
  let b := (p.y + p.x) * (q.y + q.x)
  let c := p.t * curve2D * q.t
  let d := feOfNat 2 * p.z * q.z
  let e := b - a
  let f := d - c
  let g := d + c
  let h := b + a
  ⟨e * f, g * h, f * g, e * h⟩

/-- EMADD (41_edwards.md R126). -/
def emadd (p : Extended) (q : Precomputed) : Extended :=
  let a := (p.y - p.x) * q.yminusx
  let b := (p.y + p.x) * q.yplusx
  let c := p.t * q.xy2d
  let d := feOfNat 2 * p.z
  let e := b - a
  let f := d - c
  let g := d + c
  let h := b + a
  ⟨e * f, g * h, f * g, e * h⟩

/-- EDBL (41_edwards.md R127). -/
def edbl (p : Projective) : Extended :=
  let a := p.x * p.x
  let b := p.y * p.y
  let c := feOfNat 2 * (p.z * p.z)
  let d := feOfNat 0 - a
  let e := (p.x + p.y) * (p.x + p.y) - a - b
  let g := d + b
  let f := g - c
  let h := d - b
  ⟨e * f, g * h, f * g, e * h⟩

/-- The conversion of PTOPRE (41_edwards.md R128). -/
def toPrecomputed (p : Projective) : Precomputed :=
  let zi := feInv p.z
  let x := p.x * zi
  let y := p.y * zi
  ⟨y + x, y - x, curve2D * x * y⟩

/-- ToU: u = (Z + Y) · inv(Z − Y) (41_edwards.md R129). -/
def toU (p : Projective) : Fe := (p.z + p.y) * feInv (p.z - p.y)

/-- `select(c, a, b)` (00_scope.md R16). -/
def selectPoint (c : Bool) (a b : Extended) : Extended := if c then a else b

/-- One iteration of BaseMul for the scalar bit `bit` (41_edwards.md R131): double, add B, select. -/
def baseMulStep (bit : Bool) (r : Extended) : Extended :=
  let r := edbl r.toProjective
  let s := eadd r basePoint
  selectPoint bit s r

/-- The iterations of BaseMul for the scalar bits n−1 down to 0, from `r` (41_edwards.md R131). -/
def baseMulFrom (k : Nat) : Nat → Extended → Extended
  | 0, r => r
  | i + 1, r => baseMulFrom k i (baseMulStep (k.testBit i) r)

/-- BaseMul(k): bits 255 down to 0, from the neutral element (41_edwards.md R131). -/
def baseMul (k : Nat) : Extended := baseMulFrom k 256 neutralPoint

end Sys2Proof.Machine
end

