-- ==== Sys2Proof/Syntax.lean ====
section
/-! DEFINITION. The command set ECDH25519-CMD version 1: the 19 commands of 30_encoding.md R84 with the operands
their formats name (R82). -/

namespace Sys2Proof

/-- The number of a data register D0–D15 (10_state.md R21): every value of the 4-bit field names one. -/
abbrev DReg := Fin 16

/-- The number written in a point-register field, 0–15. Only 0–3 name a point register P0–P3; `Instr.wf` checks it
(30_encoding.md R83). -/
abbrev PNum := Fin 16

/-- The number of a point register P0–P3 (10_state.md R23). -/
abbrev PReg := Fin 4

/-- One command, its operands in the order RD, RA, RB (30_encoding.md R82, R89). -/
inductive Instr where
  /-- FADD dD, dA, dB (40_field.md R101) -/
  | fadd (rd ra rb : DReg)
  /-- FSUB dD, dA, dB (40_field.md R102) -/
  | fsub (rd ra rb : DReg)
  /-- FMUL dD, dA, dB (40_field.md R103) -/
  | fmul (rd ra rb : DReg)
  /-- FINV dD, dA (40_field.md R104) -/
  | finv (rd ra : DReg)
  /-- FCANON dD, dA (40_field.md R105) -/
  | fcanon (rd ra : DReg)
  /-- PLDI pD (41_edwards.md R123) -/
  | pldi (rd : PNum)
  /-- PLDB pD (41_edwards.md R124) -/
  | pldb (rd : PNum)
  /-- PADD pD, pA, pB (41_edwards.md R125) -/
  | padd (rd ra rb : PNum)
  /-- PMADD pD, pA, pB (41_edwards.md R126) -/
  | pmadd (rd ra rb : PNum)
  /-- PDBL pD, pA (41_edwards.md R127) -/
  | pdbl (rd ra : PNum)
  /-- PTOPRE pD, pA (41_edwards.md R128) -/
  | ptopre (rd ra : PNum)
  /-- PTOU dD, pA (41_edwards.md R129) -/
  | ptou (rd : DReg) (ra : PNum)
  /-- PBASEMUL pD, dA (41_edwards.md R130) -/
  | pbasemul (rd : PNum) (ra : DReg)
  /-- LADDER dD, dA, dB (42_ladder.md R151) -/
  | ladder (rd ra rb : DReg)
  /-- HSALSA dD, dA (43_hsalsa20.md R165) -/
  | hsalsa (rd ra : DReg)
  /-- CLAMP dD, dA (44_facade.md R171) -/
  | clamp (rd ra : DReg)
  /-- KEYGEN dD (44_facade.md R172) -/
  | keygen (rd : DReg)
  /-- DERIVEPUB dD, dA (44_facade.md R173) -/
  | derivepub (rd ra : DReg)
  /-- DERIVESHARED dD, dA, dB (44_facade.md R174) -/
  | deriveshared (rd ra rb : DReg)
  deriving DecidableEq, Repr

/-- The operations of the OP column of 30_encoding.md R84. -/
inductive Op where
  | fadd | fsub | fmul | finv | fcanon
  | pldi | pldb | padd | pmadd | pdbl | ptopre | ptou | pbasemul
  | ladder | hsalsa
  | clamp | keygen | derivepub | deriveshared
  deriving DecidableEq, Repr

/-- The eight formats of 30_encoding.md R82. -/
inductive Format where
  | f3 | f2 | f1 | p3 | p2 | p1 | up | ps
  deriving DecidableEq, Repr

/-- Why a command word is no command (30_encoding.md R85; 60_exceptions.md R201). -/
inductive DecodeError where
  /-- Code 1: OP is unassigned (30_encoding.md R86). -/
  | illegalOpcode
  /-- Code 2: RSV or a field the format does not use is not 0 (30_encoding.md R87). -/
  | reservedField
  /-- Code 3: a point-register field holds 4–15 (60_exceptions.md R205). -/
  | invalidArgument
  deriving DecidableEq, Repr

end Sys2Proof
end

