-- ==== Sys2Proof/WellFormed.lean ====
section
/-! DEFINITION. Which commands name only registers that exist: a point-register operand is 0–3
(30_encoding.md R83; 60_exceptions.md R205). Data-register operands always name one. -/

namespace Sys2Proof

/-- The number names a point register P0–P3. -/
def PNum.legal (p : PNum) : Bool := decide (p.val < 4)

/-- The operands of the command name registers that exist. The checks are those of 60_exceptions.md R205: RD of P1,
P2, P3 and PS; RA of P2, P3 and UP; RB of P3. -/
def Instr.wf : Instr → Bool
  | .fadd _ _ _ => true
  | .fsub _ _ _ => true
  | .fmul _ _ _ => true
  | .finv _ _ => true
  | .fcanon _ _ => true
  | .pldi rd => PNum.legal rd
  | .pldb rd => PNum.legal rd
  | .padd rd ra rb => PNum.legal rd && PNum.legal ra && PNum.legal rb
  | .pmadd rd ra rb => PNum.legal rd && PNum.legal ra && PNum.legal rb
  | .pdbl rd ra => PNum.legal rd && PNum.legal ra
  | .ptopre rd ra => PNum.legal rd && PNum.legal ra
  | .ptou _ ra => PNum.legal ra
  | .pbasemul rd _ => PNum.legal rd
  | .ladder _ _ _ => true
  | .hsalsa _ _ => true
  | .clamp _ _ => true
  | .keygen _ => true
  | .derivepub _ _ => true
  | .deriveshared _ _ _ => true

end Sys2Proof
end

