-- ==== Sys2Proof/Decode.lean ====
section
/-! DEFINITION. The command word: its fields, formats and opcodes (30_encoding.md R81, R82, R84), the decoder of R85
and the encoder of R91, both written from the one table of opcodes and formats. -/

namespace Sys2Proof

/-- The OP column of 30_encoding.md R84. -/
def Op.code : Op → BitVec 8
  | .fadd => 0x01
  | .fsub => 0x02
  | .fmul => 0x03
  | .finv => 0x04
  | .fcanon => 0x05
  | .pldi => 0x10
  | .pldb => 0x11
  | .padd => 0x12
  | .pmadd => 0x13
  | .pdbl => 0x14
  | .ptopre => 0x15
  | .ptou => 0x16
  | .pbasemul => 0x17
  | .ladder => 0x20
  | .hsalsa => 0x30
  | .clamp => 0x40
  | .keygen => 0x41
  | .derivepub => 0x42
  | .deriveshared => 0x43

/-- The format column of 30_encoding.md R84. -/
def Op.format : Op → Format
  | .fadd => .f3
  | .fsub => .f3
  | .fmul => .f3
  | .finv => .f2
  | .fcanon => .f2
  | .pldi => .p1
  | .pldb => .p1
  | .padd => .p3
  | .pmadd => .p3
  | .pdbl => .p2
  | .ptopre => .p2
  | .ptou => .up
  | .pbasemul => .ps
  | .ladder => .f3
  | .hsalsa => .f2
  | .clamp => .f2
  | .keygen => .f1
  | .derivepub => .f2
  | .deriveshared => .f3

/-- Every row of 30_encoding.md R84. -/
def Op.all : List Op :=
  [.fadd, .fsub, .fmul, .finv, .fcanon, .pldi, .pldb, .padd, .pmadd, .pdbl, .ptopre, .ptou, .pbasemul, .ladder,
   .hsalsa, .clamp, .keygen, .derivepub, .deriveshared]

/-- The row of 30_encoding.md R84 with this OP value, if the value is assigned. -/
def opOf? (code : BitVec 8) : Option Op := Op.all.find? fun op => op.code == code

/-- The mask column of 30_encoding.md R82: the bits of the word that must match. -/
def Format.mask : Format → Word
  | .f3 => 0xFFF000FF
  | .f2 => 0xFFFF00FF
  | .f1 => 0xFFFFF0FF
  | .p3 => 0xFFF000FF
  | .p2 => 0xFFFF00FF
  | .p1 => 0xFFFFF0FF
  | .up => 0xFFFF00FF
  | .ps => 0xFFFF00FF

/-- The fields the format names as point registers all hold 0–3 (30_encoding.md R82, R83). -/
def Format.pointsLegal (f : Format) (rd ra rb : Fin 16) : Bool :=
  match f with
  | .f3 => true
  | .f2 => true
  | .f1 => true
  | .p3 => PNum.legal rd && PNum.legal ra && PNum.legal rb
  | .p2 => PNum.legal rd && PNum.legal ra
  | .p1 => PNum.legal rd
  | .up => PNum.legal ra
  | .ps => PNum.legal rd

/-- w[7:0] (30_encoding.md R81). -/
def opField (w : Word) : BitVec 8 := w.extractLsb' 0 8

/-- The 4-bit field of w whose lowest bit is `lo`, read as an unsigned index (30_encoding.md R83). -/
def indexField (lo : Nat) (w : Word) : Fin 16 := ⟨(w.extractLsb' lo 4).toNat, (w.extractLsb' lo 4).isLt⟩

/-- w[11:8] (30_encoding.md R81). -/
def rdField (w : Word) : Fin 16 := indexField 8 w

/-- w[15:12] (30_encoding.md R81). -/
def raField (w : Word) : Fin 16 := indexField 12 w

/-- w[19:16] (30_encoding.md R81). -/
def rbField (w : Word) : Fin 16 := indexField 16 w

/-- The command of an operation and its three fields; a format that does not use a field drops it. -/
def Op.build (op : Op) (rd ra rb : Fin 16) : Instr :=
  match op with
  | .fadd => .fadd rd ra rb
  | .fsub => .fsub rd ra rb
  | .fmul => .fmul rd ra rb
  | .finv => .finv rd ra
  | .fcanon => .fcanon rd ra
  | .pldi => .pldi rd
  | .pldb => .pldb rd
  | .padd => .padd rd ra rb
  | .pmadd => .pmadd rd ra rb
  | .pdbl => .pdbl rd ra
  | .ptopre => .ptopre rd ra
  | .ptou => .ptou rd ra
  | .pbasemul => .pbasemul rd ra
  | .ladder => .ladder rd ra rb
  | .hsalsa => .hsalsa rd ra
  | .clamp => .clamp rd ra
  | .keygen => .keygen rd
  | .derivepub => .derivepub rd ra
  | .deriveshared => .deriveshared rd ra rb

/-- The decode procedure of 30_encoding.md R85, total on every word: the first failing check gives the error, so the
priority is that of 60_exceptions.md R206. -/
def decode (w : Word) : Except DecodeError Instr :=
  match opOf? (opField w) with
  | none => .error .illegalOpcode
  | some op =>
    if w &&& op.format.mask &&& ~~~0x000000FF#32 ≠ 0 then .error .reservedField
    else if op.format.pointsLegal (rdField w) (raField w) (rbField w) then
      .ok (op.build (rdField w) (raField w) (rbField w))
    else .error .invalidArgument

/-- The error code STATUS.ERRCODE reports (60_exceptions.md R201). -/
def DecodeError.code : DecodeError → BitVec 4
  | .illegalOpcode => 1
  | .reservedField => 2
  | .invalidArgument => 3

/-- The code a command word completes with: 0 for a command, else the code of its decode error
(60_exceptions.md R201). -/
def completionCode (w : Word) : BitVec 4 :=
  match decode w with
  | .ok _ => 0
  | .error e => e.code

/-! The encoder (30_encoding.md R91). -/

/-- The operation of a command. -/
def Instr.op : Instr → Op
  | .fadd _ _ _ => .fadd
  | .fsub _ _ _ => .fsub
  | .fmul _ _ _ => .fmul
  | .finv _ _ => .finv
  | .fcanon _ _ => .fcanon
  | .pldi _ => .pldi
  | .pldb _ => .pldb
  | .padd _ _ _ => .padd
  | .pmadd _ _ _ => .pmadd
  | .pdbl _ _ => .pdbl
  | .ptopre _ _ => .ptopre
  | .ptou _ _ => .ptou
  | .pbasemul _ _ => .pbasemul
  | .ladder _ _ _ => .ladder
  | .hsalsa _ _ => .hsalsa
  | .clamp _ _ => .clamp
  | .keygen _ => .keygen
  | .derivepub _ _ => .derivepub
  | .deriveshared _ _ _ => .deriveshared

/-- `w = RSV·2^20 + RB·2^16 + RA·2^12 + RD·2^8 + OP` with RSV = 0 (30_encoding.md R81). -/
def packWord (op : Op) (rd ra rb : Nat) : Word :=
  BitVec.ofNat 32 (rb * 2 ^ 16 + ra * 2 ^ 12 + rd * 2 ^ 8 + op.code.toNat)

/-- The command word of a command; a field its format does not use is 0 (30_encoding.md R91). -/
def encode : Instr → Word
  | .fadd rd ra rb => packWord .fadd rd ra rb
  | .fsub rd ra rb => packWord .fsub rd ra rb
  | .fmul rd ra rb => packWord .fmul rd ra rb
  | .finv rd ra => packWord .finv rd ra 0
  | .fcanon rd ra => packWord .fcanon rd ra 0
  | .pldi rd => packWord .pldi rd 0 0
  | .pldb rd => packWord .pldb rd 0 0
  | .padd rd ra rb => packWord .padd rd ra rb
  | .pmadd rd ra rb => packWord .pmadd rd ra rb
  | .pdbl rd ra => packWord .pdbl rd ra 0
  | .ptopre rd ra => packWord .ptopre rd ra 0
  | .ptou rd ra => packWord .ptou rd ra 0
  | .pbasemul rd ra => packWord .pbasemul rd ra 0
  | .ladder rd ra rb => packWord .ladder rd ra rb
  | .hsalsa rd ra => packWord .hsalsa rd ra 0
  | .clamp rd ra => packWord .clamp rd ra 0
  | .keygen rd => packWord .keygen rd 0 0
  | .derivepub rd ra => packWord .derivepub rd ra 0
  | .deriveshared rd ra rb => packWord .deriveshared rd ra rb

/-- The command the decoder reads from the lowest `nbits` bits of `w`, every higher bit 0. A command is one 32-bit
bus word and has no byte order beyond that (20_memory.md R52; 30_encoding.md R80). -/
def decodeTableWord (nbits w : Nat) : Option Instr :=
  match decode (BitVec.ofNat 32 (w % 2 ^ nbits)) with
  | .ok i => some i
  | .error _ => none

end Sys2Proof
end

