-- ==== Sys2Proof/Config.lean ====
section
/-! DEFINITION. What the spec leaves OPEN as a named parameter (00_scope.md R9): constants with no body, so that
no proof can see a value of one. -/

namespace Sys2Proof

/-- How irq reaches a host processor (60_exceptions.md R212). DESIGN CHOICE: one input of the host, by its number, with
one numeric priority; the spec leaves the delivery wholly OPEN (log 8). -/
structure IrqRoute where
  line : Nat
  priority : Nat
  deriving DecidableEq, Repr, Inhabited

/-- Whether rst_n is synchronous or asynchronous (20_memory.md R71; 70_reset_and_hazards.md R230). -/
inductive ResetSync where
  | synchronous
  | asynchronous
  deriving DecidableEq, Repr, Inhabited

/-- `RNG` (10_state.md R36; 93_implementation_defined.md I5): the n-th 32-byte draw of the random source, under no
law. A free value; the counter is `State.draws` (log 1). -/
opaque Config.rng : Nat → Bytes32

/-- `ENGINE_BASE` (20_memory.md R50): where the platform places the 1 KiB window (log 7). -/
opaque Config.engineBase : Nat

/-- `LAT(op)` (70_reset_and_hazards.md R245, R247): the latency of a command, a function of its opcode alone
(log 9). No step depends on it. -/
opaque Config.lat : BitVec 8 → Nat

/-- The latency of a word that fails to decode, a function of its error code alone (70_reset_and_hazards.md R245;
log 9). -/
opaque Config.latRejected : BitVec 4 → Nat

/-! The platform's parameters (00_scope.md R9; log 8). No step of the engine depends on one of them. -/

/-- `HOST_BUS_ERROR_ACTION` (20_memory.md R56): what the host does on a BusError. DESIGN CHOICE: the number of the
action on the platform, since the spec lists no actions (log 8). -/
opaque Config.hostBusErrorAction : Nat

/-- `IRQ_ROUTING` (60_exceptions.md R212): the delivery and priority of irq at the host. -/
opaque Config.irqRouting : IrqRoute

/-- `WINDOW_ACCESS_POLICY` (20_memory.md R70; 60_exceptions.md R214): whether a bus master may reach the window at a
privilege level. DESIGN CHOICE: masters and levels go by number, as many of each as the platform has, and nothing but
the two decides; the spec says which masters and privilege levels and no more (log 8). -/
opaque Config.windowAccessPolicy : (master level : Nat) → Bool

/-- `HOST_IO_ORDERING` (20_memory.md R67): whether the host keeps its i-th window access in order against its j-th
access to other memory. The order among window accesses is the program's (R65) and no part of this. DESIGN CHOICE: a
yes or no for each pair of accesses; the spec gives the parameter no form (log 8). -/
opaque Config.hostIoOrdering : (windowAccess otherAccess : Nat) → Bool

/-- `RESET_SYNC` (70_reset_and_hazards.md R230). -/
opaque Config.resetSync : ResetSync

/-- `BUS_PROTOCOL` (20_memory.md R71): the protocol that carries the 32-bit accesses. DESIGN CHOICE: its number on the
platform, since the spec lists no protocols (log 8). -/
opaque Config.busProtocol : Nat

/-- The field limb decomposition, OPEN inside the unit (00_scope.md R9; 93_implementation_defined.md I1), as the widths
of the limbs (DESIGN CHOICE of the form: log 8). It has no architectural effect (10_state.md R27; log 17). -/
opaque Config.limbWidths : List Nat

end Sys2Proof
end

