-- ==== Sys2Proof/Machine/State.lean ====
section
/-! DEFINITION. The state of the engine as plain data (10_state.md), what the host can do to it (20_memory.md R71),
the reasons a step could stop, and the state after reset (10_state.md R38). -/

namespace Sys2Proof.Machine

/-- One access on the bus slave, as the port carries it (20_memory.md R71): a 10-bit byte offset, the access size in
bytes, and the four byte enables. `MemRead(off, 4)` and `MemWrite(off, 4, v)` (00_scope.md R17) have size 4 and all
four enables; every other form is one the window answers with BusError (20_memory.md R54; log 6). -/
structure Access where
  off : BitVec 10
  size : Nat
  enables : BitVec 4
  deriving DecidableEq, Repr

/-- A host access to the window (20_memory.md R71). -/
inductive HostAction where
  | read (a : Access)
  | write (a : Access) (v : Word)
  deriving DecidableEq, Repr

/-- Who moves next (10_state.md R20; 20_memory.md R65; log 2). -/
inductive Turn where
  /-- the host performs one access -/
  | host (h : HostAction)
  /-- the host processor takes the interrupt, if irq is high (70_reset_and_hazards.md R240; log 19) -/
  | takeIrq
  /-- the engine gets its turn; it steps if BUSY = 1 -/
  | engine
  /-- the hardware reset input rst_n (70_reset_and_hazards.md R230) -/
  | rstN
  deriving DecidableEq, Repr

/-- What the bus slave answers to an access (20_memory.md R56). -/
inductive Response where
  /-- a read that returns a word -/
  | word (v : Word)
  /-- a write that was taken (it may have had no effect) -/
  | done
  /-- the error response -/
  | busError
  deriving DecidableEq, Repr

/-- Everything the spec gives the engine (10_state.md R21, R28, R30, R32, R33), and three fields of the model's own:
`draws` (log 1), `turns` (log 2) and `resp` (log 5). -/
structure State where
  /-- D0–D15 (10_state.md R21) -/
  d : Vector Bytes32 16
  /-- CTRL.IE (10_state.md R28) -/
  ie : Bool
  /-- STATUS.BUSY (10_state.md R30) -/
  busy : Bool
  /-- STATUS.DONE (10_state.md R30) -/
  done : Bool
  /-- STATUS.ERR (10_state.md R30) -/
  err : Bool
  /-- STATUS.ACCERR (10_state.md R30) -/
  accerr : Bool
  /-- STATUS.ERRCODE (10_state.md R30; 60_exceptions.md R201) -/
  errcode : BitVec 4
  /-- the pending command register PEND (10_state.md R33) -/
  pend : Word
  /-- the model's own: how many random draws KEYGEN has taken (log 1) -/
  draws : Nat
  /-- the model's own: the turns still to come, the next one first (log 2) -/
  turns : List Turn
  /-- the model's own: the bus slave's answer to the last host access (log 5) -/
  resp : Option Response
  deriving DecidableEq, Repr

/-- The reasons the machine could stop with a fault. There are none: the engine never traps and every word and every
access has a defined effect (60_exceptions.md R200, R203; log 14). -/
inductive Fault where
  deriving DecidableEq, Repr

/-- The reasons a step could be refused. -/
inductive Refusal where
  /-- Raised by an arm of `exec` whose instruction has no meaning yet; no arm raises it now. Safe. -/
  | notModelled (mnemonic : String)
  deriving DecidableEq, Repr

/-- The state after reset (10_state.md R38): every data register is 32 zero bytes and every flag, IE, ERRCODE and
PEND is 0. The model's own fields start at 0, no turn and no answer (DESIGN CHOICE: logs 1, 2, 5). -/
def State.reset : State :=
  { d := Vector.replicate 16 0
    ie := false
    busy := false
    done := false
    err := false
    accerr := false
    errcode := 0
    pend := 0
    draws := 0
    turns := []
    resp := none }

end Sys2Proof.Machine
end

