-- ==== Sys2Proof/Machine/Ops.lean ====
section
/-! DEFINITION. The named operations on the state: bytes and words of a 32-byte string, data and point registers,
reset, accepting a command word, and the two ways a command completes. A completion with an error is this hardware's
only exception (60_exceptions.md R200, R204); there is no return from it. -/

namespace Sys2Proof.Machine

/-! Bytes and words of a 32-byte string (00_scope.md R11, R15; 20_memory.md R52). -/

/-- b[j], byte j of the string. -/
def byteAt (b : Bytes32) (j : Fin 32) : Byte := b.extractLsb' (8 * j.val) 8

/-- b with byte j replaced by x. -/
def setByteAt (b : Bytes32) (j : Fin 32) (x : Byte) : Bytes32 :=
  (b &&& ~~~(0xFF#256 <<< (8 * j.val))) ||| (x.setWidth 256 <<< (8 * j.val))

/-- `W(b, w)`, the w-th little-endian 32-bit word (00_scope.md R15). -/
def wordAt (b : Bytes32) (w : Fin 8) : Word := b.extractLsb' (32 * w.val) 32

/-- b with bytes 4w to 4w+3 replaced by `LEW(v)` (20_memory.md R61). -/
def setWordAt (b : Bytes32) (w : Fin 8) (v : Word) : Bytes32 :=
  (b &&& ~~~(0xFFFFFFFF#256 <<< (32 * w.val))) ||| (v.setWidth 256 <<< (32 * w.val))

/-! Registers. -/

/-- `D[i]` (00_scope.md R12). -/
def State.reg (s : State) (i : DReg) : Bytes32 := s.d[i.val]

/-- `D[i] <- v` (00_scope.md R12). -/
def State.setReg (s : State) (i : DReg) (v : Bytes32) : State := { s with d := s.d.set i.val v }

/-- The data register that is slot k of P[n]: D[4n + k] (10_state.md R23). -/
def slot (n : PReg) (k : Fin 4) : DReg := ⟨4 * n.val + k.val, by omega⟩

/-- `P[n] <- (v0, v1, v2, v3)`: all four slots (10_state.md R23). -/
def State.setPoint (s : State) (n : PReg) (v0 v1 v2 v3 : Bytes32) : State :=
  (((s.setReg (slot n 0) v0).setReg (slot n 1) v1).setReg (slot n 2) v2).setReg (slot n 3) v3

/-- The point register a field names, if its number is 0–3 (30_encoding.md R83). -/
def pointReg? (p : PNum) : Option PReg := if h : p.val < 4 then some ⟨p.val, h⟩ else none

/-! Reset, launch and completion. -/

/-- A reset, by rst_n or by CTRL.SRST: every piece of state the spec names takes its reset value
(70_reset_and_hazards.md R231). The model's own fields `draws`, `turns` and `resp` are kept (log 13). -/
def State.applyReset (s : State) : State :=
  { State.reset with draws := s.draws, turns := s.turns, resp := s.resp }

/-- An accepted CMD write (20_memory.md R63): PEND <- w, DONE <- 0, BUSY <- 1. -/
def State.acceptCommand (s : State) (w : Word) : State := { s with pend := w, done := false, busy := true }

/-- The completion fields of a success (60_exceptions.md R210): ERRCODE <- 0, DONE <- 1, BUSY <- 0; ERR and ACCERR
stay. -/
def State.completeOk (s : State) : State := { s with errcode := 0, done := true, busy := false }

/-- Completion with an error (60_exceptions.md R204): no data register is written, ERRCODE <- c, ERR <- 1, DONE <- 1,
BUSY <- 0. -/
def State.completeError (s : State) (e : DecodeError) : State :=
  { s with errcode := e.code, err := true, done := true, busy := false }

/-- The outcome of the meanings: a next state (there are no faults, log 14). -/
abbrev Result := Host.Outcome State Fault Refusal

/-- A command that writes D[i] <- v and completes (60_exceptions.md R210). -/
def finishReg (i : DReg) (v : Bytes32) (s : State) : Result := .next (s.setReg i v).completeOk

/-- A command that writes the four slots of P[n] and completes (60_exceptions.md R210). -/
def finishPoint (n : PReg) (v0 v1 v2 v3 : Bytes32) (s : State) : Result :=
  .next (s.setPoint n v0 v1 v2 v3).completeOk

/-- A command that names no point register completes with INVALID_ARGUMENT (60_exceptions.md R205). -/
def finishInvalid (s : State) : Result := .next (s.completeError .invalidArgument)

end Sys2Proof.Machine
end

