-- ==== Sys2Proof/Machine/Operands.lean ====
section
/-! DEFINITION. Every way a command reads or writes its operands: field element, scalar, raw bytes (10_state.md R22)
and the three point forms (R24, R25). -/

namespace Sys2Proof.Machine

/-- `fe(D[i])` (10_state.md R22). -/
def State.fieldReg (s : State) (i : DReg) : Fe := fe (s.reg i)

/-- `sc(D[i])` (10_state.md R22). -/
def State.scalarReg (s : State) (i : DReg) : Nat := sc (s.reg i)

/-- extended(P[n]): X, Y, Z, T from slots 0–3 (10_state.md R24). -/
def State.extendedReg (s : State) (n : PReg) : Extended :=
  ⟨s.fieldReg (slot n 0), s.fieldReg (slot n 1), s.fieldReg (slot n 2), s.fieldReg (slot n 3)⟩

/-- projective(P[n]): X, Y, Z from slots 0–2; slot 3 is not read (10_state.md R24). -/
def State.projectiveReg (s : State) (n : PReg) : Projective :=
  ⟨s.fieldReg (slot n 0), s.fieldReg (slot n 1), s.fieldReg (slot n 2)⟩

/-- precomputed(P[n]): slots 0–2; slot 3 is not read (10_state.md R25). -/
def State.precomputedReg (s : State) (n : PReg) : Precomputed :=
  ⟨s.fieldReg (slot n 0), s.fieldReg (slot n 1), s.fieldReg (slot n 2)⟩

/-- D[i] <- enc(x), then completion (10_state.md R27). -/
def finishField (i : DReg) (x : Fe) (s : State) : Result := finishReg i (enc x) s

/-- P[n] <- an extended point, each coordinate written with enc, then completion (10_state.md R27). -/
def finishExtended (n : PReg) (p : Extended) (s : State) : Result :=
  finishPoint n (enc p.x) (enc p.y) (enc p.z) (enc p.t) s

/-- P[n] <- a precomputed point, zero in slot 3, then completion (10_state.md R25). -/
def finishPrecomputed (n : PReg) (p : Precomputed) (s : State) : Result :=
  finishPoint n (enc p.yplusx) (enc p.yminusx) (enc p.xy2d) (enc (feOfNat 0)) s

end Sys2Proof.Machine
end

