-- ==== Sys2Proof/Machine/EdwardsCommands.lean ====
section
/-! DEFINITION. The Edwards point commands (41_edwards.md R123–R130). A point operand that names no register
completes the command with INVALID_ARGUMENT (60_exceptions.md R205; log 10). -/

namespace Sys2Proof.Machine

/-- PLDI: P[D] <- (0, 1, 1, 0) (41_edwards.md R123). -/
def execPldi (rd : PNum) (s : State) : Result :=
  match pointReg? rd with
  | some d => finishExtended d neutralPoint s
  | none => finishInvalid s

/-- PLDB: P[D] <- (Bx, By, 1, Bx·By) (41_edwards.md R124). -/
def execPldb (rd : PNum) (s : State) : Result :=
  match pointReg? rd with
  | some d => finishExtended d basePoint s
  | none => finishInvalid s

/-- PADD: P[D] <- EADD(extended(P[A]), extended(P[B])) (41_edwards.md R125). -/
def execPadd (rd ra rb : PNum) (s : State) : Result :=
  match pointReg? rd, pointReg? ra, pointReg? rb with
  | some d, some a, some b => finishExtended d (eadd (s.extendedReg a) (s.extendedReg b)) s
  | _, _, _ => finishInvalid s

/-- PMADD: P[D] <- EMADD(extended(P[A]), precomputed(P[B])) (41_edwards.md R126). -/
def execPmadd (rd ra rb : PNum) (s : State) : Result :=
  match pointReg? rd, pointReg? ra, pointReg? rb with
  | some d, some a, some b => finishExtended d (emadd (s.extendedReg a) (s.precomputedReg b)) s
  | _, _, _ => finishInvalid s

/-- PDBL: P[D] <- EDBL(projective(P[A])) (41_edwards.md R127). -/
def execPdbl (rd ra : PNum) (s : State) : Result :=
  match pointReg? rd, pointReg? ra with
  | some d, some a => finishExtended d (edbl (s.projectiveReg a)) s
  | _, _ => finishInvalid s

/-- PTOPRE: P[D] <- the precomputed form of P[A], slot 3 zero (41_edwards.md R128). -/
def execPtopre (rd ra : PNum) (s : State) : Result :=
  match pointReg? rd, pointReg? ra with
  | some d, some a => finishPrecomputed d (toPrecomputed (s.projectiveReg a)) s
  | _, _ => finishInvalid s

/-- PTOU: D[D] <- enc(ToU(projective(P[A]))) (41_edwards.md R129). -/
def execPtou (rd : DReg) (ra : PNum) (s : State) : Result :=
  match pointReg? ra with
  | some a => finishField rd (toU (s.projectiveReg a)) s
  | none => finishInvalid s

/-- PBASEMUL: P[D] <- BaseMul(sc(D[A])) (41_edwards.md R130). -/
def execPbasemul (rd : PNum) (ra : DReg) (s : State) : Result :=
  match pointReg? rd with
  | some d => finishExtended d (baseMul (s.scalarReg ra)) s
  | none => finishInvalid s

end Sys2Proof.Machine
end

