-- ==== Sys2Proof/Machine/Montgomery.lean ====
section
/-! DEFINITION. The Montgomery ladder on the u-coordinate (42_ladder.md R150). -/

namespace Sys2Proof.Machine

/-- The running points of the ladder, (x2, z2) and (x3, z3) (42_ladder.md R150). -/
structure LadderState where
  x2 : Fe
  z2 : Fe
  x3 : Fe
  z3 : Fe
  deriving DecidableEq, Repr

/-- `cswap` of both coordinates (00_scope.md R16; 42_ladder.md R150). -/
def ladderSwap (b : Bool) (s : LadderState) : LadderState :=
  if b then ⟨s.x3, s.z3, s.x2, s.z2⟩ else s

/-- The differential addition and doubling (42_ladder.md R150), a24 = 121665. -/
def ladderStep (x1 : Fe) (s : LadderState) : LadderState :=
  let a := s.x2 + s.z2
  let aa := a * a
  let b := s.x2 - s.z2
  let bb := b * b
  let e := aa - bb
  let c := s.x3 + s.z3
  let d := s.x3 - s.z3
  let da := d * a
  let cb := c * b
  { x2 := aa * bb
    z2 := e * (aa + feOfNat 121665 * e)
    x3 := (da + cb) * (da + cb)
    z3 := x1 * ((da - cb) * (da - cb)) }

/-- The iterations for the scalar bits n−1 down to 0: swap, step, swap back (42_ladder.md R150). -/
def ladderFrom (k : Nat) (u : Fe) : Nat → LadderState → LadderState
  | 0, s => s
  | t + 1, s => ladderFrom k u t (ladderSwap (k.testBit t) (ladderStep u (ladderSwap (k.testBit t) s)))

/-- Ladder(k, u): bits 254 down to 0, then x2 · inv(z2) (42_ladder.md R150). -/
def ladderFn (k : Nat) (u : Fe) : Fe :=
  let s := ladderFrom k u 255 ⟨feOfNat 1, feOfNat 0, u, feOfNat 1⟩
  s.x2 * feInv s.z2

end Sys2Proof.Machine
end

