-- ==== Sys2Proof/Machine/Salsa.lean ====
section
/-! DEFINITION. The HSalsa20 core with a zero nonce (43_hsalsa20.md R160–R164) over the word operators of
00_scope.md R15. The column round comes first (90_conflicts.md C2). -/

namespace Sys2Proof.Machine

/-- The 16-word state, indexed 0–15 (43_hsalsa20.md R161). -/
abbrev SalsaState := Vector Word 16

/-- `rotl32(a, s)` for 1 ≤ s ≤ 31 (00_scope.md R15). -/
def rotl32 (a : Word) (s : Nat) : Word := (a <<< s) ||| (a >>> (32 - s))

/-- The constants σ0 to σ3, "expand 32-byte k" (43_hsalsa20.md R160). -/
def sigma0 : Word := 0x61707865
def sigma1 : Word := 0x3320646e
def sigma2 : Word := 0x79622d32
def sigma3 : Word := 0x6b206574

/-- The initial state for the key K and the zero nonce (43_hsalsa20.md R161). -/
def salsaInit (k : Bytes32) : SalsaState :=
  #v[sigma0, wordAt k 0, wordAt k 1, wordAt k 2,
     wordAt k 3, sigma1, 0, 0,
     0, 0, sigma2, wordAt k 4,
     wordAt k 5, wordAt k 6, wordAt k 7, sigma3]

/-- `QR(a, b, c, d)` updates four words in place, each line using the word the line before it wrote
(43_hsalsa20.md R162). -/
def quarterRound (a b c d : Fin 16) (x : SalsaState) : SalsaState :=
  let x := x.set b (x[b] ^^^ rotl32 (x[a] + x[d]) 7)
  let x := x.set c (x[c] ^^^ rotl32 (x[b] + x[a]) 9)
  let x := x.set d (x[d] ^^^ rotl32 (x[c] + x[b]) 13)
  x.set a (x[a] ^^^ rotl32 (x[d] + x[c]) 18)

/-- The column round (43_hsalsa20.md R163). -/
def columnRound (x : SalsaState) : SalsaState :=
  quarterRound 15 3 7 11 (quarterRound 10 14 2 6 (quarterRound 5 9 13 1 (quarterRound 0 4 8 12 x)))

/-- The row round (43_hsalsa20.md R163). -/
def rowRound (x : SalsaState) : SalsaState :=
  quarterRound 15 12 13 14 (quarterRound 10 11 8 9 (quarterRound 5 6 7 4 (quarterRound 0 1 2 3 x)))

/-- One double-round: a column round, then a row round (43_hsalsa20.md R163). -/
def doubleRound (x : SalsaState) : SalsaState := rowRound (columnRound x)

/-- n double-rounds. -/
def doubleRounds : Nat → SalsaState → SalsaState
  | 0, x => x
  | n + 1, x => doubleRounds n (doubleRound x)

/-- The string whose eight little-endian words are w0 to w7, w0 in bytes 0–3. -/
def joinWords (w0 w1 w2 w3 w4 w5 w6 w7 : Word) : Bytes32 :=
  w7 ++ (w6 ++ (w5 ++ (w4 ++ (w3 ++ (w2 ++ (w1 ++ w0))))))

/-- The output words: positions 0, 5, 10, 15, 6, 7, 8, 9, with no feed-forward (43_hsalsa20.md R164). -/
def salsaOutput (x : SalsaState) : Bytes32 := joinWords x[0] x[5] x[10] x[15] x[6] x[7] x[8] x[9]

/-- HSalsa20(K) with a zero nonce: 10 double-rounds (43_hsalsa20.md R163–R165). -/
def hsalsa20 (k : Bytes32) : Bytes32 := salsaOutput (doubleRounds 10 (salsaInit k))

end Sys2Proof.Machine
end

