-- ==== Sys2Proof/Machine/FacadeCommands.lean ====
section
/-! DEFINITION. The key-agreement commands (44_facade.md R171–R174). -/

namespace Sys2Proof.Machine

/-- `Clamp(b)` (44_facade.md R170). -/
def clampBytes (b : Bytes32) : Bytes32 :=
  let c := setByteAt b 0 (byteAt b 0 &&& 0xF8)
  let c := setByteAt c 31 (byteAt c 31 &&& 0x7F)
  setByteAt c 31 (byteAt c 31 ||| 0x40)

/-- One draw of the random-byte oracle, and the state that has taken it (10_state.md R36; log 1). -/
def State.draw (s : State) : Bytes32 × State := (Config.rng s.draws, { s with draws := s.draws + 1 })

/-- The public key of a raw private key: enc(ToU(BaseMul(sc(Clamp(k))))) (44_facade.md R173). -/
def publicKey (k : Bytes32) : Bytes32 := enc (toU (baseMul (sc (clampBytes k))).toProjective)

/-- The shared key of a raw private key and a peer's u: HSalsa20(enc(Ladder(sc(Clamp(k)), fe(u)))), the private key
clamped as a copy (44_facade.md R174; 90_conflicts.md C4). -/
def sharedKey (k u : Bytes32) : Bytes32 := hsalsa20 (enc (ladderFn (sc (clampBytes k)) (fe u)))

/-- CLAMP: D[D] <- Clamp(D[A]) (44_facade.md R171). -/
def execClamp (rd ra : DReg) (s : State) : Result := finishReg rd (clampBytes (s.reg ra)) s

/-- KEYGEN: D[D] <- Clamp(one draw) (44_facade.md R172). -/
def execKeygen (rd : DReg) (s : State) : Result :=
  let (r, s) := s.draw
  finishReg rd (clampBytes r) s

/-- DERIVEPUB: D[D] <- the public key of D[A] (44_facade.md R173). -/
def execDerivepub (rd ra : DReg) (s : State) : Result := finishReg rd (publicKey (s.reg ra)) s

/-- DERIVESHARED: D[D] <- the shared key of D[A] and D[B] (44_facade.md R174). -/
def execDeriveshared (rd ra rb : DReg) (s : State) : Result := finishReg rd (sharedKey (s.reg ra) (s.reg rb)) s

end Sys2Proof.Machine
end

