-- ==== Sys2Proof/Machine/FieldCommands.lean ====
section
/-! DEFINITION. The field arithmetic commands (40_field.md R100–R105). -/

namespace Sys2Proof.Machine

/-- FADD: D[D] <- enc((a + b) mod p) (40_field.md R101). -/
def execFadd (rd ra rb : DReg) (s : State) : Result := finishField rd (s.fieldReg ra + s.fieldReg rb) s

/-- FSUB: D[D] <- enc((a − b) mod p) (40_field.md R102). -/
def execFsub (rd ra rb : DReg) (s : State) : Result := finishField rd (s.fieldReg ra - s.fieldReg rb) s

/-- FMUL: D[D] <- enc((a · b) mod p) (40_field.md R103). -/
def execFmul (rd ra rb : DReg) (s : State) : Result := finishField rd (s.fieldReg ra * s.fieldReg rb) s

/-- FINV: D[D] <- enc(a^(p−2) mod p) (40_field.md R104). -/
def execFinv (rd ra : DReg) (s : State) : Result := finishField rd (feInv (s.fieldReg ra)) s

/-- FCANON: D[D] <- enc(fe(D[A])) (40_field.md R105). -/
def execFcanon (rd ra : DReg) (s : State) : Result := finishField rd (s.fieldReg ra) s

end Sys2Proof.Machine
end

