-- ==== Sys2Proof/Machine/HsalsaCommands.lean ====
section
/-! DEFINITION. The HSalsa20 key-derivation command (43_hsalsa20.md R165). -/

namespace Sys2Proof.Machine

/-- HSALSA: D[D] <- HSalsa20(D[A]), raw bytes in and out (43_hsalsa20.md R165). -/
def execHsalsa (rd ra : DReg) (s : State) : Result := finishReg rd (hsalsa20 (s.reg ra)) s

end Sys2Proof.Machine
end

