-- ==== Sys2Proof/Machine/LadderCommands.lean ====
section
/-! DEFINITION. The Montgomery ladder command (42_ladder.md R151). -/

namespace Sys2Proof.Machine

/-- LADDER: D[D] <- enc(Ladder(sc(D[A]), fe(D[B]))), with no clamp (42_ladder.md R151; 90_conflicts.md C6). -/
def execLadder (rd ra rb : DReg) (s : State) : Result :=
  finishField rd (ladderFn (s.scalarReg ra) (s.fieldReg rb)) s

end Sys2Proof.Machine
end

