-- ==== Sys2Proof/Machine/Dispatch.lean ====
section
/-! DEFINITION. One arm per command (30_encoding.md R84). -/

namespace Sys2Proof.Machine

def exec (i : Instr) (s : State) : Host.Outcome State Fault Refusal :=
  match i with
  | .fadd rd ra rb => Sys2Proof.Machine.execFadd rd ra rb s
  | .fsub rd ra rb => Sys2Proof.Machine.execFsub rd ra rb s
  | .fmul rd ra rb => Sys2Proof.Machine.execFmul rd ra rb s
  | .finv rd ra => Sys2Proof.Machine.execFinv rd ra s
  | .fcanon rd ra => Sys2Proof.Machine.execFcanon rd ra s
  | .pldi rd => Sys2Proof.Machine.execPldi rd s
  | .pldb rd => Sys2Proof.Machine.execPldb rd s
  | .padd rd ra rb => Sys2Proof.Machine.execPadd rd ra rb s
  | .pmadd rd ra rb => Sys2Proof.Machine.execPmadd rd ra rb s
  | .pdbl rd ra => Sys2Proof.Machine.execPdbl rd ra s
  | .ptopre rd ra => Sys2Proof.Machine.execPtopre rd ra s
  | .ptou rd ra => Sys2Proof.Machine.execPtou rd ra s
  | .pbasemul rd ra => Sys2Proof.Machine.execPbasemul rd ra s
  | .ladder rd ra rb => Sys2Proof.Machine.execLadder rd ra rb s
  | .hsalsa rd ra => Sys2Proof.Machine.execHsalsa rd ra s
  | .clamp rd ra => Sys2Proof.Machine.execClamp rd ra s
  | .keygen rd => Sys2Proof.Machine.execKeygen rd s
  | .derivepub rd ra => Sys2Proof.Machine.execDerivepub rd ra s
  | .deriveshared rd ra rb => Sys2Proof.Machine.execDeriveshared rd ra rb s

end Sys2Proof.Machine
end

