-- ==== Sys2Proof/Machine/Flags.lean ====
section
/-! DEFINITION. CTRL and STATUS as the host sees them, and the interrupt output (10_state.md R28–R30, R34). These are
the only flags; no command writes a condition code (R30). -/

namespace Sys2Proof.Machine

/-- The STATUS read value: BUSY, DONE, ERR, ACCERR in bits 0–3, ERRCODE in bits 11:8, every other bit 0
(10_state.md R30). -/
def State.statusWord (s : State) : Word :=
  0#20 ++ (s.errcode ++ (0#4 ++ (BitVec.ofBool s.accerr ++ (BitVec.ofBool s.err ++
    (BitVec.ofBool s.done ++ BitVec.ofBool s.busy)))))

/-- The CTRL read value `2 · IE`: SRST reads 0 (10_state.md R28; 20_memory.md R58). -/
def State.ctrlWord (s : State) : Word := 0#30 ++ (BitVec.ofBool s.ie ++ 0#1)

/-- A STATUS write: 1 clears DONE, ERR, ACCERR; every other bit is ignored (10_state.md R30; 20_memory.md R59). -/
def State.writeStatus (s : State) (v : Word) : State :=
  { s with
    done := s.done && !v.getLsbD 1
    err := s.err && !v.getLsbD 2
    accerr := s.accerr && !v.getLsbD 3 }

/-- A CTRL write: IE <- v[1]; if v[0] = 1 a soft reset follows in the same access (10_state.md R29). -/
def State.writeCtrl (s : State) (v : Word) : State :=
  let s := { s with ie := v.getLsbD 1 }
  if v.getLsbD 0 then s.applyReset else s

/-- ACCERR <- 1: a host access to the data window or CMD while BUSY = 1 (60_exceptions.md R207). -/
def State.flagAccess (s : State) : State := { s with accerr := true }

/-- The irq output, `STATUS.DONE AND CTRL.IE`, derived and level-sensitive (10_state.md R34). -/
def State.irq (s : State) : Bool := s.done && s.ie

/-- The level this engine drives on an interrupt input of the host (60_exceptions.md R212; log 8). -/
def State.irqOnLine (s : State) (line : Nat) : Bool := s.irq && line == Config.irqRouting.line

end Sys2Proof.Machine
end

