-- ==== Sys2Proof/Machine/Window.lean ====
section
/-! DEFINITION. The MMIO window: what a host access does (20_memory.md R50–R64). Each access is atomic (R60). -/

namespace Sys2Proof.Machine

/-- The ID read value, "ECDH" with 'E' in bits 31:24 (10_state.md R31). -/
def idValue : Word := 0x45434448

/-- The VERSION read value (10_state.md R31). -/
def versionValue : Word := 0x00000001

/-- What stands at an offset of the window (20_memory.md R51). -/
inductive Target where
  | id
  | version
  | ctrl
  | status
  | cmd
  /-- word w of D[i] (20_memory.md R53) -/
  | data (i : DReg) (w : Fin 8)
  deriving DecidableEq, Repr

/-- The offset, in the window, of a physical address that lies in it (20_memory.md R50; log 7). -/
def windowOffset? (addr : Nat) : Option (BitVec 10) :=
  if Config.engineBase ≤ addr ∧ addr < Config.engineBase + 1024 then
    some (BitVec.ofNat 10 (addr - Config.engineBase))
  else none

/-- The offset at which a master's access at a privilege level reaches the engine, if the platform lets it through
(60_exceptions.md R214; log 8). -/
def masterOffset? (master level addr : Nat) : Option (BitVec 10) :=
  if Config.windowAccessPolicy master level then windowOffset? addr else none

/-- The map of 20_memory.md R51 and R53 at a word offset; `none` is unmapped (R57). -/
def targetAt? (off : Nat) : Option Target :=
  if off = 0x000 then some .id
  else if off = 0x004 then some .version
  else if off = 0x008 then some .ctrl
  else if off = 0x00C then some .status
  else if off = 0x010 then some .cmd
  else if 0x100 ≤ off ∧ off < 0x300 then
    some (.data ⟨(off - 0x100) / 32 % 16, Nat.mod_lt _ (by decide)⟩
      ⟨(off - 0x100) % 32 / 4 % 8, Nat.mod_lt _ (by decide)⟩)
  else none

/-- The access is a whole 32-bit one at a multiple of 4 (20_memory.md R54, R55). -/
def Access.legal (a : Access) : Bool := a.size == 4 && a.enables == 0xF#4 && a.off.toNat % 4 == 0

/-- What the access reaches; `none` is answered with BusError (20_memory.md R54–R57). -/
def Access.target? (a : Access) : Option Target := if a.legal then targetAt? a.off.toNat else none

/-- `MemRead(off, 4)` / `MemWrite(off, 4, v)` as an access (00_scope.md R17). -/
def wordAccess (off : BitVec 10) : Access := ⟨off, 4, 0xF#4⟩

/-- The read data a response carries. A read answered with BusError carries 0 (20_memory.md R56). DESIGN CHOICE: the
answer to a write, taken or a BusError, carries 0 too; the spec gives no read data there (log 18). Unsafe for a claim
about that value. -/
def Response.rdata : Response → Word
  | .word v => v
  | .done => 0
  | .busError => 0

/-- A CMD write (20_memory.md R63): accepted while idle, dropped and flagged while busy. -/
def State.writeCmd (s : State) (w : Word) : State := if s.busy then s.flagAccess else s.acceptCommand w

/-- A host read: the answer and the state after it (20_memory.md R58, R61, R62). -/
def hostRead (a : Access) (s : State) : Response × State :=
  match a.target? with
  | none => (.busError, s)
  | some .id => (.word idValue, s)
  | some .version => (.word versionValue, s)
  | some .ctrl => (.word s.ctrlWord, s)
  | some .status => (.word s.statusWord, s)
  | some .cmd => (.word s.pend, s)
  | some (.data i w) => if s.busy then (.word 0, s.flagAccess) else (.word (wordAt (s.reg i) w), s)

/-- A host write: the answer and the state after it (10_state.md R29, R30; 20_memory.md R59, R61–R63). -/
def hostWrite (a : Access) (v : Word) (s : State) : Response × State :=
  match a.target? with
  | none => (.busError, s)
  | some .id => (.done, s)
  | some .version => (.done, s)
  | some .ctrl => (.done, s.writeCtrl v)
  | some .status => (.done, s.writeStatus v)
  | some .cmd => (.done, s.writeCmd v)
  | some (.data i w) => (.done, if s.busy then s.flagAccess else s.setReg i (setWordAt (s.reg i) w v))

/-- One host access: its answer and the state after it. -/
def hostAccess (h : HostAction) (s : State) : Response × State :=
  match h with
  | .read a => hostRead a s
  | .write a v => hostWrite a v s

/-- The host's turn: the access, with its answer left on the bus slave's outputs (log 5). -/
def hostTurn (h : HostAction) (s : State) : State :=
  { (hostAccess h s).2 with resp := some (hostAccess h s).1 }

end Sys2Proof.Machine
end

