-- ==== Sys2Proof/Machine/Engine.lean ====
section
/-! DEFINITION. The engine's atomic step (60_exceptions.md R204, R210) and the turns of the two agents
(20_memory.md R65). -/

namespace Sys2Proof.Machine

/-- The engine's step on PEND: a command runs, a bad word completes with its error (30_encoding.md R85). -/
def engineStep (s : State) : Result :=
  match decode s.pend with
  | .ok i => exec i s
  | .error e => .next (s.completeError e)

/-- The engine's turn: it has a step only when BUSY = 1 (10_state.md R20; log 4). -/
def engineTurn (s : State) : Result := if s.busy then engineStep s else .next s

/-- One turn of an agent. Taking the interrupt is the host's affair alone: irq is a level that the engine drives, and
only DONE and IE change it (10_state.md R34; log 19). -/
def takeTurn (t : Turn) (s : State) : Result :=
  match t with
  | .host h => .next (hostTurn h s)
  | .takeIrq => .next s
  | .engine => engineTurn s
  | .rstN => .next s.applyReset

/-- The next event: the next turn; with no turn left the engine's, so that an enabled engine step occurs
(70_reset_and_hazards.md R247; log 3). -/
def nextEvent (s : State) : Result :=
  match s.turns with
  | [] => engineTurn s
  | t :: ts => takeTurn t { s with turns := ts }

/-- The latency of the pending command: LAT of its opcode, or of the error code of a word that fails to decode. It
reads nothing but PEND (70_reset_and_hazards.md R245; log 9). -/
def completionLatency (s : State) : Nat :=
  match decode s.pend with
  | .ok _ => Config.lat (opField s.pend)
  | .error e => Config.latRejected e.code

/-- The command word w is placed where the engine fetches: accepted as by a CMD write while idle, with the engine's
turn next (20_memory.md R63; log 12). -/
def State.launch (s : State) (w : Word) : State := { s.acceptCommand w with turns := .engine :: s.turns }

end Sys2Proof.Machine
end

