-- ==== Sys2Proof/Machine/Step.lean ====
section
/-! DEFINITION. One step of the machine: the next event of the schedule held in the state. -/

namespace Sys2Proof.Machine

/-- One step: the next host access, rst_n, or the engine's atomic step (20_memory.md R65). -/
def step (s : State) : Host.Outcome State Fault Refusal := nextEvent s

/-- s with the lowest `nbits` bits of `w` as the command the very next step runs (log 12). -/
def State.withFetchWord (s : State) (nbits w : Nat) : State := s.launch (BitVec.ofNat 32 (w % 2 ^ nbits))

end Sys2Proof.Machine
end

