-- ==== Sys2Proof/Machine/Assembler.lean ====
section
/-! DEFINITION. The assembler text of a command (30_encoding.md R89): `MNEMONIC op1[, op2[, op3]]`, operands in the
order RD, RA, RB, letters in either case, a comment from `;` on. Text is a list of characters. -/

namespace Sys2Proof.Machine

/-- The mnemonic column of 30_encoding.md R84. -/
def opName : Op → List Char
  | .fadd => ['f', 'a', 'd', 'd']
  | .fsub => ['f', 's', 'u', 'b']
  | .fmul => ['f', 'm', 'u', 'l']
  | .finv => ['f', 'i', 'n', 'v']
  | .fcanon => ['f', 'c', 'a', 'n', 'o', 'n']
  | .pldi => ['p', 'l', 'd', 'i']
  | .pldb => ['p', 'l', 'd', 'b']
  | .padd => ['p', 'a', 'd', 'd']
  | .pmadd => ['p', 'm', 'a', 'd', 'd']
  | .pdbl => ['p', 'd', 'b', 'l']
  | .ptopre => ['p', 't', 'o', 'p', 'r', 'e']
  | .ptou => ['p', 't', 'o', 'u']
  | .pbasemul => ['p', 'b', 'a', 's', 'e', 'm', 'u', 'l']
  | .ladder => ['l', 'a', 'd', 'd', 'e', 'r']
  | .hsalsa => ['h', 's', 'a', 'l', 's', 'a']
  | .clamp => ['c', 'l', 'a', 'm', 'p']
  | .keygen => ['k', 'e', 'y', 'g', 'e', 'n']
  | .derivepub => ['d', 'e', 'r', 'i', 'v', 'e', 'p', 'u', 'b']
  | .deriveshared => ['d', 'e', 'r', 'i', 'v', 'e', 's', 'h', 'a', 'r', 'e', 'd']

/-- An operand as written: a data register `d0`–`d15` or a point register `p0`–`p3` (30_encoding.md R89). -/
inductive AsmOperand where
  | data (n : Fin 16)
  | point (n : Fin 16)
  deriving DecidableEq, Repr

/-- The operands of a command in the order RD, RA, RB (30_encoding.md R82, R89). -/
def asmOperands : Instr → List AsmOperand
  | .fadd rd ra rb => [.data rd, .data ra, .data rb]
  | .fsub rd ra rb => [.data rd, .data ra, .data rb]
  | .fmul rd ra rb => [.data rd, .data ra, .data rb]
  | .finv rd ra => [.data rd, .data ra]
  | .fcanon rd ra => [.data rd, .data ra]
  | .pldi rd => [.point rd]
  | .pldb rd => [.point rd]
  | .padd rd ra rb => [.point rd, .point ra, .point rb]
  | .pmadd rd ra rb => [.point rd, .point ra, .point rb]
  | .pdbl rd ra => [.point rd, .point ra]
  | .ptopre rd ra => [.point rd, .point ra]
  | .ptou rd ra => [.data rd, .point ra]
  | .pbasemul rd ra => [.point rd, .data ra]
  | .ladder rd ra rb => [.data rd, .data ra, .data rb]
  | .hsalsa rd ra => [.data rd, .data ra]
  | .clamp rd ra => [.data rd, .data ra]
  | .keygen rd => [.data rd]
  | .derivepub rd ra => [.data rd, .data ra]
  | .deriveshared rd ra rb => [.data rd, .data ra, .data rb]

/-- A register number 0–15 in decimal, with no leading zero. -/
def numberText (n : Fin 16) : List Char :=
  if n.val < 10 then [Char.ofNat (48 + n.val)] else ['1', Char.ofNat (38 + n.val)]

def operandText : AsmOperand → List Char
  | .data n => 'd' :: numberText n
  | .point n => 'p' :: numberText n

/-- The operands joined by `, `. -/
def operandsText : List AsmOperand → List Char
  | [] => []
  | [o] => operandText o
  | o :: os => operandText o ++ [',', ' '] ++ operandsText os

/-- The command as text (30_encoding.md R89). -/
def disassemble (i : Instr) : List Char := opName i.op ++ [' '] ++ operandsText (asmOperands i)

/-- A lower-case letter for a capital one; every other character as it is. -/
def lowerChar (c : Char) : Char := if 65 ≤ c.toNat ∧ c.toNat ≤ 90 then Char.ofNat (c.toNat + 32) else c

/-- A space or a tab. -/
def isBlank (c : Char) : Bool := c == ' ' || c == '\t'

/-- The characters without blanks at either end. -/
def trimBlanks (l : List Char) : List Char := ((l.dropWhile isBlank).reverse.dropWhile isBlank).reverse

/-- The pieces between commas, `piece` being what has been read of the current one, backwards. -/
def splitCommas : List Char → List Char → List (List Char)
  | piece, [] => [piece.reverse]
  | piece, c :: cs => if c == ',' then piece.reverse :: splitCommas [] cs else splitCommas (c :: piece) cs

/-- The register a piece of text names. -/
def parseOperand (t : List Char) : Option AsmOperand :=
  match t with
  | 'd' :: ds => ((List.finRange 16).find? fun n => numberText n == ds).map .data
  | 'p' :: ds => ((List.finRange 16).find? fun n => numberText n == ds).map .point
  | _ => none

/-- The operands of a piece of text. -/
def parseOperands (ts : List (List Char)) : Option (List AsmOperand) := ts.mapM fun t => parseOperand (trimBlanks t)

/-- The number of the k-th operand, 0 where there is none. -/
def operandNumber (os : List AsmOperand) (k : Nat) : Fin 16 :=
  match os[k]? with
  | some (.data n) => n
  | some (.point n) => n
  | none => 0

/-- The command a line of assembler text names (30_encoding.md R89). A line whose operands are not those of the
mnemonic's format, or that names a point register above p3, is no command (log 15). -/
def parseLine (line : List Char) : Option Instr :=
  let text := trimBlanks ((line.takeWhile (· != ';')).map lowerChar)
  let name := text.takeWhile fun c => !isBlank c
  let rest := text.dropWhile fun c => !isBlank c
  match Op.all.find? (fun op => opName op == name), parseOperands (splitCommas [] rest) with
  | some op, some os =>
    let i := op.build (operandNumber os 0) (operandNumber os 1) (operandNumber os 2)
    if asmOperands i = os ∧ i.wf = true then some i else none
  | _, _ => none

/-- The command word of a line of assembler text (30_encoding.md R89, R91). -/
def assemble (line : List Char) : Option Word := (parseLine line).map encode

end Sys2Proof.Machine
end

