-- ==== Sys2Proof/Machine/HostMacros.lean ====
section
/-! DEFINITION. The pseudo-instructions and host macros of 30_encoding.md R90, as commands and as host turns. They
are no encodings. -/

namespace Sys2Proof.Machine

/-- The pseudo-instructions (30_encoding.md R90). -/
inductive Pseudo where
  | fsqr (rd ra : DReg)
  | x25519 (rd rk ru : DReg)
  | ecdh (rd rk ru : DReg)
  deriving DecidableEq, Repr

/-- The expansion column of 30_encoding.md R90. -/
def expandPseudo : Pseudo → List Instr
  | .fsqr rd ra => [.fmul rd ra ra]
  | .x25519 rd rk ru => [.clamp rd rk, .ladder rd rd ru]
  | .ecdh rd rk ru => [.deriveshared rd rk ru]

/-- The condition column of 30_encoding.md R90: X25519 needs D ≠ U. -/
def pseudoCondition : Pseudo → Bool
  | .fsqr _ _ => true
  | .x25519 rd _ ru => rd != ru
  | .ecdh _ _ _ => true

/-- The offset of word w of D[i] (20_memory.md R53). -/
def dataOffset (i : DReg) (w : Fin 8) : BitVec 10 := BitVec.ofNat 10 (0x100 + 32 * i.val + 4 * w.val)

/-- `MemRead(off, 4)` as a turn. -/
def readTurn (off : BitVec 10) : Turn := .host (.read (wordAccess off))

/-- `MemWrite(off, 4, v)` as a turn. -/
def writeTurn (off : BitVec 10) (v : Word) : Turn := .host (.write (wordAccess off) v)

/-- `WRD dN, b`: eight word writes (30_encoding.md R90). -/
def macroWrd (n : DReg) (b : Bytes32) : List Turn :=
  (List.finRange 8).map fun w => writeTurn (dataOffset n w) (wordAt b w)

/-- `RDD dN`: eight word reads (30_encoding.md R90). -/
def macroRdd (n : DReg) : List Turn := (List.finRange 8).map fun w => readTurn (dataOffset n w)

/-- A hexadecimal digit, in either case (log 15). -/
def hexDigit? (c : Char) : Option Nat :=
  if '0' ≤ c ∧ c ≤ '9' then some (c.toNat - 48)
  else if 'a' ≤ c ∧ c ≤ 'f' then some (c.toNat - 87)
  else if 'A' ≤ c ∧ c ≤ 'F' then some (c.toNat - 55)
  else none

/-- The bytes that pairs of hexadecimal digits name, the first digit of a pair the higher one. -/
def hexBytes? : List Char → Option (List Byte)
  | [] => some []
  | [_] => none
  | h :: l :: ds =>
    match hexDigit? h, hexDigit? l, hexBytes? ds with
    | some x, some y, some bs => some (BitVec.ofNat 8 (16 * x + y) :: bs)
    | _, _, _ => none

/-- `LE` of a list of bytes, byte 0 first (00_scope.md R11). -/
def leValue : List Byte → Nat
  | [] => 0
  | b :: bs => b.toNat + 256 * leValue bs

/-- The string that 64 hexadecimal digits name, the first two digits being byte 0 (30_encoding.md R90;
00_scope.md R11). -/
def hexString? (ds : List Char) : Option Bytes32 :=
  if ds.length = 64 then (hexBytes? ds).map fun bs => BitVec.ofNat 256 (leValue bs) else none

/-- `WRD dN, <64 hex digits>` as written (30_encoding.md R90). -/
def macroWrdHex (n : DReg) (ds : List Char) : Option (List Turn) := (hexString? ds).map (macroWrd n)

/-- A `WAIT` loop that sees BUSY = 1 in its first `polls` reads of STATUS, then the engine's step, then the read that
ends it (30_encoding.md R90; log 16). -/
def macroWait (polls : Nat) : List Turn := List.replicate polls (readTurn 0x00C) ++ [.engine, readTurn 0x00C]

/-- `EXEC`: the command word to CMD, then `WAIT` (30_encoding.md R90). -/
def macroExec (i : Instr) (polls : Nat) : List Turn := writeTurn 0x010 (encode i) :: macroWait polls

/-- The read of `CHECK` (30_encoding.md R90). -/
def macroCheck : List Turn := [readTurn 0x00C]

/-- The test of `CHECK`: the command succeeded iff STATUS[11:8] = 0 (30_encoding.md R90). -/
def checkOk (status : Word) : Bool := status.extractLsb' 8 4 == 0#4

/-! What the host learns from a macro. -/

/-- The answer a turn brings: only a host access is answered. -/
def turnAnswer (t : Turn) (after : State) : List Response :=
  match t with
  | .host _ => after.resp.toList
  | .takeIrq => []
  | .engine => []
  | .rstN => []

/-- The answers to the host's accesses when these turns are taken in order. -/
def answersTo : List Turn → State → List Response
  | [], _ => []
  | t :: ts, s =>
    match takeTurn t s with
    | .next u => turnAnswer t u ++ answersTo ts u
    | .fault _ => []
    | .refused _ => []

/-- The word an answer carries, if it carries one. -/
def Response.word? : Response → Option Word
  | .word v => some v
  | .done => none
  | .busError => none

/-- The bytes `RDD` assembles from its answers, the w-th word in bytes 4w to 4w+3 (30_encoding.md R90; 20_memory.md
R53). There is no string unless the answers are eight words. -/
def rddBytes (rs : List Response) : Option Bytes32 :=
  match rs.mapM Response.word? with
  | some [w0, w1, w2, w3, w4, w5, w6, w7] => some (joinWords w0 w1 w2 w3 w4 w5 w6 w7)
  | _ => none

/-- `RDD dN`: the string the host reads (30_encoding.md R90). -/
def rddValue (n : DReg) (s : State) : Option Bytes32 := rddBytes (answersTo (macroRdd n) s)

/-- `CHECK`: the read of STATUS and the test of its answer (30_encoding.md R90). -/
def checkSucceeds (s : State) : Bool :=
  match answersTo macroCheck s with
  | [.word v] => checkOk v
  | _ => false

end Sys2Proof.Machine
end

