-- ==== Sys2Proof/Safety.lean ====
section
/-! DEFINITION. What counts as a safe state and a safe run, and the vocabulary of frames that the statements use. -/

namespace Sys2Proof.Machine

/-- STATUS agrees with itself and with PEND: a running command is not done (20_memory.md R63; 60_exceptions.md R204,
R210); a done command's ERRCODE is the code of the word in PEND (R202); an idle engine's ERRCODE is that code or no
command was accepted since reset; codes 4–15 never occur (R201). -/
structure State.Coherent (s : State) : Prop where
  busyNotDone : s.busy = true → s.done = false
  doneCode : s.done = true → s.errcode = completionCode s.pend
  idleCode : s.busy = false → s.errcode = completionCode s.pend ∨ (s.pend = 0 ∧ s.errcode = 0)
  codeBound : s.errcode.toNat ≤ 3

/-- The completion fields of a success (60_exceptions.md R210). -/
structure CompletedOk (t : State) : Prop where
  busy : t.busy = false
  done : t.done = true
  errcode : t.errcode = 0

/-- Everything but the data registers `ds`, the completion fields of a success and the draw counter is as before:
the frame of a command that succeeds (10_state.md R26; 60_exceptions.md R210). -/
structure FrameOutside (ds : List DReg) (s t : State) : Prop where
  regs : ∀ i : DReg, i ∉ ds → t.reg i = s.reg i
  ie : t.ie = s.ie
  err : t.err = s.err
  accerr : t.accerr = s.accerr
  pend : t.pend = s.pend
  turns : t.turns = s.turns
  resp : t.resp = s.resp

/-- The host access is one a correct program makes only while idle (70_reset_and_hazards.md R240): it reaches the data
window or writes CMD. -/
def HostAction.needsIdle (h : HostAction) : Bool :=
  match h with
  | .read a =>
    match a.target? with
    | some (.data _ _) => true
    | _ => false
  | .write a _ =>
    match a.target? with
    | some (.data _ _) => true
    | some .cmd => true
    | _ => false

/-- Whether the host must still wait after the next turn of s, `owes` being whether it had to before
(70_reset_and_hazards.md R240). An accepted CMD write starts the wait. It ends when the host sees BUSY = 0 in a read of
STATUS, or takes the interrupt while irq is high, or a reset discards the command (R232, R233; log 19); the engine's
step alone does not end it. -/
def owesAfterTurn (owes : Bool) (s : State) : Bool :=
  match s.turns with
  | [] => owes
  | .engine :: _ => owes
  | .takeIrq :: _ => owes && !s.irq
  | .rstN :: _ => false
  | .host (.read a) :: _ =>
    match a.target? with
    | some .status => owes && s.busy
    | _ => owes
  | .host (.write a v) :: _ =>
    match a.target? with
    | some .cmd => owes || !s.busy
    | some .ctrl => owes && !v.getLsbD 0
    | _ => owes

/-- The next turn respects the wait-for-completion rule: a host that must wait makes no access that needs an idle
engine (70_reset_and_hazards.md R240). -/
def State.respectsWait (owes : Bool) (s : State) : Bool :=
  match s.turns with
  | .host h :: _ => !(owes && h.needsIdle)
  | _ => true

/-- A run of n steps in which the host never breaks the wait-for-completion rule, from a state in which it must wait
if `owes` (70_reset_and_hazards.md R240). -/
def safeRunFrom : Nat → Bool → State → Bool
  | 0, _, _ => true
  | n + 1, owes, s =>
    s.respectsWait owes &&
      match step s with
      | .next t => safeRunFrom n (owesAfterTurn owes s) t
      | .fault _ => false
      | .refused _ => false

/-- A safe run of n steps from s: the host must wait at its start exactly if a command is pending
(70_reset_and_hazards.md R240). -/
def safeRun (n : Nat) (s : State) : Bool := safeRunFrom n s.busy s

end Sys2Proof.Machine
end

