-- ==== Sys2Proof/Certificates/Slice0/Obligations.lean ====
section
/-! DEFINITION. The statements for the provers, and the reference forms they compare the machine with: the field as
`ZMod p`, the point formulas, the two forms of the ladder and the matrix form of Salsa20, written again from the
spec's rules and not from the model's definitions. -/

namespace Sys2Proof.Reference

open Sys2Proof.Machine

/-- p in decimal (00_scope.md R2). -/
abbrev P : Nat := 57896044618658097711785492504343953926634992332820282019728792003956564819949

/-- GF(p) as the integers mod p (00_scope.md R2). -/
abbrev F := ZMod P

/-- `LE(D[i]) mod 2^255`: the integer a field reading reduces mod p (00_scope.md R13). -/
def low255 (s : State) (i : DReg) : Nat := (s.reg i).toNat % 2 ^ 255

/-- The field element a register is read as (00_scope.md R13). -/
def readFe (s : State) (i : DReg) : F := (low255 s i : F)

/-- D[i] holds the canonical encoding of x (00_scope.md R13; 10_state.md R27). -/
def Holds (t : State) (i : DReg) (x : F) : Prop := ((t.reg i).toNat : F) = x ∧ (t.reg i).toNat < P

/-- `a^(p−2)` (00_scope.md R14). -/
def inv (a : F) : F := a ^ (P - 2)

/-- An extended point (10_state.md R24). -/
structure Point where
  X : F
  Y : F
  Z : F
  T : F

/-- A point register's number as a point field holds it. -/
def num (n : PReg) : PNum := ⟨n.val, by omega⟩

/-- Data register 4n + k (10_state.md R23). -/
def at4 (n : PReg) (k : Fin 4) : DReg := ⟨4 * n.val + k.val, by omega⟩

/-- The four data registers of P[n] (10_state.md R23). -/
def quad (n : PReg) : List DReg := [at4 n 0, at4 n 1, at4 n 2, at4 n 3]

/-- P[n] in extended form (10_state.md R24). -/
def readPoint (s : State) (n : PReg) : Point :=
  ⟨readFe s (at4 n 0), readFe s (at4 n 1), readFe s (at4 n 2), readFe s (at4 n 3)⟩

/-- The four slots of P[n] hold the encodings of a, b, c, d. -/
def HoldsFour (t : State) (n : PReg) (a b c d : F) : Prop :=
  Holds t (at4 n 0) a ∧ Holds t (at4 n 1) b ∧ Holds t (at4 n 2) c ∧ Holds t (at4 n 3) d

/-- P[n] holds an extended point. -/
def HoldsPoint (t : State) (n : PReg) (q : Point) : Prop := HoldsFour t n q.X q.Y q.Z q.T

/-- 2d in decimal (41_edwards.md R120). -/
def twoD : F := 16295367250680780974490674513165176452449235426866156013048779062215315747161

/-- Bx and By in decimal (41_edwards.md R121). -/
def Bx : F := 15112221349535400772501151409588531511454012693041857206046113283949847762202
def By : F := 46316835694926478169428394003475163141307993866256225615783033603165251855960

/-- The base point and the neutral element in extended form (41_edwards.md R121, R123). -/
def base : Point := ⟨Bx, By, 1, Bx * By⟩
def neutral : Point := ⟨0, 1, 1, 0⟩

/-- The last line of EADD, EMADD and EDBL: (E·F, G·H, F·G, E·H) (41_edwards.md R132). -/
def efgh (E F' G H : F) : Point := ⟨E * F', G * H, F' * G, E * H⟩

/-- EADD with the intermediate values A, B, C, D written out (41_edwards.md R125). -/
def add (p q : Point) : Point :=
  efgh ((p.Y + p.X) * (q.Y + q.X) - (p.Y - p.X) * (q.Y - q.X)) (2 * p.Z * q.Z - p.T * twoD * q.T)
    (2 * p.Z * q.Z + p.T * twoD * q.T) ((p.Y + p.X) * (q.Y + q.X) + (p.Y - p.X) * (q.Y - q.X))

/-- EMADD with a precomputed second operand (41_edwards.md R126). -/
def madd (p : Point) (yplusx yminusx xy2d : F) : Point :=
  efgh ((p.Y + p.X) * yplusx - (p.Y - p.X) * yminusx) (2 * p.Z - p.T * xy2d)
    (2 * p.Z + p.T * xy2d) ((p.Y + p.X) * yplusx + (p.Y - p.X) * yminusx)

/-- EDBL, T not read; a = −1 (41_edwards.md R127). -/
def dbl (p : Point) : Point :=
  efgh ((p.X + p.Y) ^ 2 - p.X ^ 2 - p.Y ^ 2) (p.Y ^ 2 - p.X ^ 2 - 2 * p.Z ^ 2)
    (p.Y ^ 2 - p.X ^ 2) (-(p.X ^ 2) - p.Y ^ 2)

/-- BaseMul as a fold over the bit positions 255 down to 0 (41_edwards.md R131). -/
def baseMul (k : Nat) : Point :=
  (List.range 256).reverse.foldl (fun R i => if k.testBit i then add (dbl R) base else dbl R) neutral

/-- The four coordinates of the ladder (42_ladder.md R150). -/
structure Rung where
  x2 : F
  z2 : F
  x3 : F
  z3 : F

/-- cswap of both coordinates (42_ladder.md R150). -/
def cswap (b : Bool) (r : Rung) : Rung := if b then ⟨r.x3, r.z3, r.x2, r.z2⟩ else r

/-- The differential addition and doubling with A, B, C, D written out (42_ladder.md R150). -/
def rungStep (u : F) (r : Rung) : Rung :=
  { x2 := (r.x2 + r.z2) ^ 2 * (r.x2 - r.z2) ^ 2
    z2 := ((r.x2 + r.z2) ^ 2 - (r.x2 - r.z2) ^ 2) *
      ((r.x2 + r.z2) ^ 2 + 121665 * ((r.x2 + r.z2) ^ 2 - (r.x2 - r.z2) ^ 2))
    x3 := ((r.x3 - r.z3) * (r.x2 + r.z2) + (r.x3 + r.z3) * (r.x2 - r.z2)) ^ 2
    z3 := u * ((r.x3 - r.z3) * (r.x2 + r.z2) - (r.x3 + r.z3) * (r.x2 - r.z2)) ^ 2 }

/-- Ladder(k, u) as a fold over the bit positions 254 down to 0: swap, step, swap back (42_ladder.md R150). -/
def ladder (k : Nat) (u : F) : F :=
  let r := (List.range 255).reverse.foldl
    (fun r t => cswap (k.testBit t) (rungStep u (cswap (k.testBit t) r))) ⟨1, 0, u, 1⟩
  r.x2 * inv r.z2

/-- RFC 7748's form: one swap per bit, by the XOR of adjacent bits, and a final swap (42_ladder.md R153). -/
def deferredLadder (k : Nat) (u : F) : F :=
  let last := (List.range 255).reverse.foldl
    (fun (q : Bool × Rung) t => (k.testBit t, rungStep u (cswap (q.1 ^^ k.testBit t) q.2))) (false, ⟨1, 0, u, 1⟩)
  let r := cswap last.1 last.2
  r.x2 * inv r.z2

/-- The Salsa20 state as a matrix, word 4i + j in row i and column j (43_hsalsa20.md R163). -/
abbrev Matrix4 := Fin 4 → Fin 4 → Word

/-- The quarter-round on four words (43_hsalsa20.md R162). -/
def quarter (y : Fin 4 → Word) : Fin 4 → Word :=
  let z1 := y 1 ^^^ (y 0 + y 3).rotateLeft 7
  let z2 := y 2 ^^^ (z1 + y 0).rotateLeft 9
  let z3 := y 3 ^^^ (z2 + z1).rotateLeft 13
  let z0 := y 0 ^^^ (z3 + z2).rotateLeft 18
  ![z0, z1, z2, z3]

/-- The row round: row i goes through a quarter-round that starts at its diagonal word (43_hsalsa20.md R163). -/
def rows (m : Matrix4) : Matrix4 := fun i j => quarter (fun k => m i (i + k)) (j - i)

/-- The column round is the row round of the transposed matrix (43_hsalsa20.md R163). -/
def columns (m : Matrix4) : Matrix4 := fun i j => rows (fun a b => m b a) j i

/-- The i-th little-endian word of a string (00_scope.md R15). -/
def leWord (k : Bytes32) (i : Nat) : Word := BitVec.ofNat 32 (k.toNat / 2 ^ (32 * i))

/-- The initial state (43_hsalsa20.md R161). -/
def initial (k : Bytes32) : Matrix4 :=
  ![![0x61707865, leWord k 0, leWord k 1, leWord k 2],
    ![leWord k 3, 0x3320646e, 0, 0],
    ![0, 0, 0x79622d32, leWord k 4],
    ![leWord k 5, leWord k 6, leWord k 7, 0x6b206574]]

/-- HSalsa20: ten double-rounds, column round first, then positions 0, 5, 10, 15, 6, 7, 8, 9 (43_hsalsa20.md R163,
R164). The value is the little-endian integer of the output string. -/
def hsalsa (k : Bytes32) : Nat :=
  let m := (fun m => rows (columns m))^[10] (initial k)
  (m 0 0).toNat + (m 1 1).toNat * 2 ^ 32 + (m 2 2).toNat * 2 ^ 64 + (m 3 3).toNat * 2 ^ 96 +
    (m 1 2).toNat * 2 ^ 128 + (m 1 3).toNat * 2 ^ 160 + (m 2 0).toNat * 2 ^ 192 + (m 2 1).toNat * 2 ^ 224

/-- `Clamp` bit by bit: bits 0–2 and 255 clear, bit 254 set, every other bit unchanged (44_facade.md R170). -/
def ClampOf (c b : Bytes32) : Prop :=
  ∀ j, j < 256 → c.getLsbD j = if j < 3 ∨ j = 255 then false else if j = 254 then true else b.getLsbD j

/-- The data registers a command writes (30_encoding.md R82; 10_state.md R23). -/
def dests : Instr → List DReg
  | .fadd rd _ _ => [rd]
  | .fsub rd _ _ => [rd]
  | .fmul rd _ _ => [rd]
  | .finv rd _ => [rd]
  | .fcanon rd _ => [rd]
  | .pldi rd => (List.finRange 16).filter fun i => i.val / 4 = rd.val
  | .pldb rd => (List.finRange 16).filter fun i => i.val / 4 = rd.val
  | .padd rd _ _ => (List.finRange 16).filter fun i => i.val / 4 = rd.val
  | .pmadd rd _ _ => (List.finRange 16).filter fun i => i.val / 4 = rd.val
  | .pdbl rd _ => (List.finRange 16).filter fun i => i.val / 4 = rd.val
  | .ptopre rd _ => (List.finRange 16).filter fun i => i.val / 4 = rd.val
  | .ptou rd _ => [rd]
  | .pbasemul rd _ => (List.finRange 16).filter fun i => i.val / 4 = rd.val
  | .ladder rd _ _ => [rd]
  | .hsalsa rd _ => [rd]
  | .clamp rd _ => [rd]
  | .keygen rd => [rd]
  | .derivepub rd _ => [rd]
  | .deriveshared rd _ _ => [rd]

/-- The data registers a command reads (10_state.md R22, R24, R25): slot 3 is read only by an extended operand, and
PTOU reads only Y and Z (41_edwards.md R129). -/
def sources : Instr → List DReg
  | .fadd _ ra rb => [ra, rb]
  | .fsub _ ra rb => [ra, rb]
  | .fmul _ ra rb => [ra, rb]
  | .finv _ ra => [ra]
  | .fcanon _ ra => [ra]
  | .pldi _ => []
  | .pldb _ => []
  | .padd _ ra rb => (List.finRange 16).filter fun i => i.val / 4 = ra.val ∨ i.val / 4 = rb.val
  | .pmadd _ ra rb =>
    (List.finRange 16).filter fun i => i.val / 4 = ra.val ∨ (i.val / 4 = rb.val ∧ i.val % 4 < 3)
  | .pdbl _ ra => (List.finRange 16).filter fun i => i.val / 4 = ra.val ∧ i.val % 4 < 3
  | .ptopre _ ra => (List.finRange 16).filter fun i => i.val / 4 = ra.val ∧ i.val % 4 < 3
  | .ptou _ ra => (List.finRange 16).filter fun i => i.val / 4 = ra.val ∧ (i.val % 4 = 1 ∨ i.val % 4 = 2)
  | .pbasemul _ ra => [ra]
  | .ladder _ ra rb => [ra, rb]
  | .hsalsa _ ra => [ra]
  | .clamp _ ra => [ra]
  | .keygen _ => []
  | .derivepub _ ra => [ra]
  | .deriveshared _ ra rb => [ra, rb]

/-- The result is a field element, so its encoding is canonical (10_state.md R27). -/
def writesField : Instr → Bool
  | .hsalsa _ _ => false
  | .clamp _ _ => false
  | .keygen _ => false
  | .deriveshared _ _ _ => false
  | .fadd _ _ _ => true
  | .fsub _ _ _ => true
  | .fmul _ _ _ => true
  | .finv _ _ => true
  | .fcanon _ _ => true
  | .pldi _ => true
  | .pldb _ => true
  | .padd _ _ _ => true
  | .pmadd _ _ _ => true
  | .pdbl _ _ => true
  | .ptopre _ _ => true
  | .ptou _ _ => true
  | .pbasemul _ _ => true
  | .ladder _ _ _ => true
  | .derivepub _ _ => true

/-- The command succeeded: exactly the registers `ds` may have changed, and no random draw was taken
(60_exceptions.md R210; 10_state.md R36). -/
def Succeeds (ds : List DReg) (s t : State) : Prop := CompletedOk t ∧ FrameOutside ds s t ∧ t.draws = s.draws

/-- The 19 assigned opcodes (30_encoding.md R84). -/
def assigned : List Nat :=
  [0x01, 0x02, 0x03, 0x04, 0x05, 0x10, 0x11, 0x12, 0x13, 0x14, 0x15, 0x16, 0x17, 0x20, 0x30, 0x40, 0x41, 0x42, 0x43]

/-- For each assigned opcode, how many of the fields RD, RA, RB the format uses (30_encoding.md R82, R84). -/
def usedFields (op : Nat) : Nat :=
  if op ∈ [0x01, 0x02, 0x03, 0x12, 0x13, 0x20, 0x43] then 3
  else if op ∈ [0x10, 0x11, 0x41] then 1
  else 2

/-- A point field of the word holds 4–15 (60_exceptions.md R205): RD of P1, P2, P3, PS; RA of P2, P3, UP; RB of P3. -/
def BadPoint (w : Nat) : Prop :=
  (w % 256 ∈ [0x10, 0x11, 0x12, 0x13, 0x14, 0x15, 0x17] ∧ 4 ≤ w / 2 ^ 8 % 16) ∨
  (w % 256 ∈ [0x12, 0x13, 0x14, 0x15, 0x16] ∧ 4 ≤ w / 2 ^ 12 % 16) ∨
  (w % 256 ∈ [0x12, 0x13] ∧ 4 ≤ w / 2 ^ 16 % 16)

/-- The 4-bit field of a word's value from bit `lo` on (30_encoding.md R81, R83). -/
def nibble (lo w : Nat) : Fin 16 := ⟨w / 2 ^ lo % 16, Nat.mod_lt _ (by decide)⟩

/-- The words with opcode `op`, whose format uses the first `fields` of RD, RA, RB, all of them data registers: a
nonzero bit above the fields is code 2, else the word is the command `mk RD RA RB` (30_encoding.md R82, R85). -/
def EncodedAs (op fields : Nat) (mk : Fin 16 → Fin 16 → Fin 16 → Instr) : Prop :=
  ∀ w : Word, w.toNat % 256 = op →
    (w.toNat / 2 ^ (8 + 4 * fields) ≠ 0 → decode w = .error .reservedField) ∧
    (w.toNat / 2 ^ (8 + 4 * fields) = 0 →
      decode w = .ok (mk (nibble 8 w.toNat) (nibble 12 w.toNat) (nibble 16 w.toNat)))

/-- The same for a format that names point registers in the fields that start at the bits `points`: a nonzero bit above
the fields is code 2, else a point field of 4–15 is code 3, else the word is the command `mk RD RA RB`
(30_encoding.md R82, R85). -/
def EncodedWithPoints (op fields : Nat) (points : List Nat) (mk : Fin 16 → Fin 16 → Fin 16 → Instr) : Prop :=
  ∀ w : Word, w.toNat % 256 = op →
    (w.toNat / 2 ^ (8 + 4 * fields) ≠ 0 → decode w = .error .reservedField) ∧
    (w.toNat / 2 ^ (8 + 4 * fields) = 0 → (∃ lo ∈ points, 4 ≤ w.toNat / 2 ^ lo % 16) →
      decode w = .error .invalidArgument) ∧
    (w.toNat / 2 ^ (8 + 4 * fields) = 0 → (∀ lo ∈ points, w.toNat / 2 ^ lo % 16 < 4) →
      decode w = .ok (mk (nibble 8 w.toNat) (nibble 12 w.toNat) (nibble 16 w.toNat)))

/-- The turn is the hardware reset or a whole-word CTRL write with bit 0 set (70_reset_and_hazards.md R230). -/
def IsReset (x : Turn) : Prop :=
  x = .rstN ∨ ∃ v : Word, x = .host (.write ⟨0x008, 4, 0xF⟩ v) ∧ v.getLsbD 0 = true

end Sys2Proof.Reference

open Sys2Proof Sys2Proof.Machine Sys2Proof.Reference

/-! Field commands (40_field.md). The statement of each command begins with its encoding: which words are the command
and which complete with code 2 or 3. -/

/-- R101: FADD writes (a + b) mod p of the low 255 bits of its sources, canonically, and nothing else; it always
completes. -/
def Obligations.FaddWritesSumModP : Prop :=
  EncodedAs 0x01 3 (fun d a b => .fadd d a b) ∧
  ∀ (rd ra rb : DReg) (s : State), ∃ t, exec (.fadd rd ra rb) s = .next t ∧
    (t.reg rd).toNat = (low255 s ra + low255 s rb) % P ∧ Succeeds [rd] s t

/-- R102: FSUB writes the mathematical (a − b) mod p, in [0, p). -/
def Obligations.FsubWritesDifferenceModP : Prop :=
  EncodedAs 0x02 3 (fun d a b => .fsub d a b) ∧
  ∀ (rd ra rb : DReg) (s : State), ∃ t, exec (.fsub rd ra rb) s = .next t ∧
    ((t.reg rd).toNat : ℤ) = ((low255 s ra : ℤ) - low255 s rb) % P ∧ Succeeds [rd] s t

/-- R103: FMUL writes (a · b) mod p, with no truncation at any width. -/
def Obligations.FmulWritesProductModP : Prop :=
  EncodedAs 0x03 3 (fun d a b => .fmul d a b) ∧
  ∀ (rd ra rb : DReg) (s : State), ∃ t, exec (.fmul rd ra rb) s = .next t ∧
    (t.reg rd).toNat = (low255 s ra * low255 s rb) % P ∧ Succeeds [rd] s t

/-- R104: FINV writes a^(p−2) mod p, which is 0 for a = 0 and the inverse of a otherwise. -/
def Obligations.FinvWritesFermatPower : Prop :=
  EncodedAs 0x04 2 (fun d a _ => .finv d a) ∧
  ∀ (rd ra : DReg) (s : State), ∃ t, exec (.finv rd ra) s = .next t ∧
    Holds t rd (readFe s ra ^ (P - 2)) ∧ (readFe s ra = 0 → t.reg rd = 0) ∧
    (readFe s ra ≠ 0 → readFe s ra * ((t.reg rd).toNat : F) = 1) ∧ Succeeds [rd] s t

/-- R104, corner cases: FINV of 0 is 0, and for a ≠ 0 the FMUL of a register and its FINV is 1. -/
def Obligations.FinvInvertsEveryNonzero : Prop :=
  ∀ (rd ra re : DReg) (s : State), rd ≠ ra →
    ∃ t u, exec (.finv rd ra) s = .next t ∧ exec (.fmul re ra rd) t = .next u ∧
      (low255 s ra % P = 0 → t.reg rd = 0) ∧ (low255 s ra % P ≠ 0 → u.reg re = 1)

/-- R105: FCANON writes the source's low 255 bits reduced mod p. -/
def Obligations.FcanonWritesReducedValue : Prop :=
  EncodedAs 0x05 2 (fun d a _ => .fcanon d a) ∧
  ∀ (rd ra : DReg) (s : State), ∃ t, exec (.fcanon rd ra) s = .next t ∧
    (t.reg rd).toNat = low255 s ra % P ∧ Succeeds [rd] s t

/-- R106: FADD and FMUL are commutative and associative, FMUL distributes over FADD, and FSUB of b is FADD of p − b,
each byte for byte. The two sides of a law run from the same state, the left one in x, the right one in y and z. -/
def Obligations.FieldCommandsObeyRingLaws : Prop :=
  (∀ (rd ra rb : DReg) (s : State), exec (.fadd rd ra rb) s = exec (.fadd rd rb ra) s ∧
    exec (.fmul rd ra rb) s = exec (.fmul rd rb ra) s) ∧
  (∀ (a b c x y : DReg) (s : State), x ≠ c → y ≠ a →
    (∃ t1 t2 u1 u2, exec (.fadd x a b) s = .next t1 ∧ exec (.fadd x x c) t1 = .next t2 ∧
      exec (.fadd y b c) s = .next u1 ∧ exec (.fadd y a y) u1 = .next u2 ∧ t2.reg x = u2.reg y) ∧
    (∃ t1 t2 u1 u2, exec (.fmul x a b) s = .next t1 ∧ exec (.fmul x x c) t1 = .next t2 ∧
      exec (.fmul y b c) s = .next u1 ∧ exec (.fmul y a y) u1 = .next u2 ∧ t2.reg x = u2.reg y)) ∧
  (∀ (a b c x y z : DReg) (s : State), x ≠ a → y ≠ a → y ≠ c → z ≠ y →
    ∃ t1 t2 u1 u2 u3, exec (.fadd x b c) s = .next t1 ∧ exec (.fmul x a x) t1 = .next t2 ∧
      exec (.fmul y a b) s = .next u1 ∧ exec (.fmul z a c) u1 = .next u2 ∧ exec (.fadd y y z) u2 = .next u3 ∧
      t2.reg x = u3.reg y) ∧
  (∀ (rd ra rb rn : DReg) (s : State), (low255 s rn + low255 s rb) % P = 0 →
    exec (.fsub rd ra rb) s = exec (.fadd rd ra rn) s)

/-! Edwards commands (41_edwards.md). -/

/-- R123: PLDI writes (0, 1, 1, 0) to the four slots. -/
def Obligations.PldiLoadsNeutralElement : Prop :=
  EncodedWithPoints 0x10 1 [8] (fun d _ _ => .pldi d) ∧
  ∀ (d : PReg) (s : State), ∃ t, exec (.pldi (num d)) s = .next t ∧
    t.reg (at4 d 0) = 0 ∧ t.reg (at4 d 1) = 1 ∧ t.reg (at4 d 2) = 1 ∧ t.reg (at4 d 3) = 0 ∧ Succeeds (quad d) s t

/-- R124: PLDB writes enc(Bx), enc(By), enc(1), enc(Bx·By), the little-endian values of R121. -/
def Obligations.PldbLoadsBasePoint : Prop :=
  EncodedWithPoints 0x11 1 [8] (fun d _ _ => .pldb d) ∧
  ∀ (d : PReg) (s : State), ∃ t, exec (.pldb (num d)) s = .next t ∧
    HoldsPoint t d base ∧ (t.reg (at4 d 3)).toNat =
      0x67875f0fd78b766566ea4e8e64abe37d20f09f80775152f56dde8ab3a5b7dda3 ∧ Succeeds (quad d) s t

/-- R125: PADD writes EADD of its two extended operands. -/
def Obligations.PaddWritesUnifiedSum : Prop :=
  EncodedWithPoints 0x12 3 [8, 12, 16] (fun d a b => .padd d a b) ∧
  ∀ (d a b : PReg) (s : State), ∃ t, exec (.padd (num d) (num a) (num b)) s = .next t ∧
    HoldsPoint t d (add (readPoint s a) (readPoint s b)) ∧ Succeeds (quad d) s t

/-- R126: PMADD writes EMADD of an extended and a precomputed operand; for a precomputed operand that is the form of an
affine (x, y), that is EADD with (x, y, 1, x·y). -/
def Obligations.PmaddWritesMixedSum : Prop :=
  EncodedWithPoints 0x13 3 [8, 12, 16] (fun d a b => .pmadd d a b) ∧
  ∀ (d a b : PReg) (s : State), ∃ t, exec (.pmadd (num d) (num a) (num b)) s = .next t ∧
    HoldsPoint t d (madd (readPoint s a) (readFe s (at4 b 0)) (readFe s (at4 b 1)) (readFe s (at4 b 2))) ∧
    (∀ x y : F, readFe s (at4 b 0) = y + x → readFe s (at4 b 1) = y - x → readFe s (at4 b 2) = twoD * x * y →
      HoldsPoint t d (add (readPoint s a) ⟨x, y, 1, x * y⟩)) ∧
    Succeeds (quad d) s t

/-- R127: PDBL writes EDBL of its projective operand. -/
def Obligations.PdblWritesDouble : Prop :=
  EncodedWithPoints 0x14 2 [8, 12] (fun d a _ => .pdbl d a) ∧
  ∀ (d a : PReg) (s : State), ∃ t, exec (.pdbl (num d) (num a)) s = .next t ∧
    HoldsPoint t d (dbl (readPoint s a)) ∧ Succeeds (quad d) s t

/-- R128: PTOPRE writes (y + x, y − x, 2d·x·y, 0) with x = X·inv(Z) and y = Y·inv(Z). -/
def Obligations.PtopreWritesPrecomputedForm : Prop :=
  EncodedWithPoints 0x15 2 [8, 12] (fun d a _ => .ptopre d a) ∧
  ∀ (d a : PReg) (s : State), ∃ t, exec (.ptopre (num d) (num a)) s = .next t ∧
    (∀ x y : F, x = readFe s (at4 a 0) * inv (readFe s (at4 a 2)) → y = readFe s (at4 a 1) * inv (readFe s (at4 a 2)) →
      HoldsFour t d (y + x) (y - x) (twoD * x * y) 0) ∧ Succeeds (quad d) s t

/-- R129: PTOU writes (Z + Y)·inv(Z − Y). -/
def Obligations.PtouWritesMontgomeryU : Prop :=
  EncodedWithPoints 0x16 2 [12] (fun d a _ => .ptou d a) ∧
  ∀ (rd : DReg) (a : PReg) (s : State), ∃ t, exec (.ptou rd (num a)) s = .next t ∧
    Holds t rd ((readFe s (at4 a 2) + readFe s (at4 a 1)) * inv (readFe s (at4 a 2) - readFe s (at4 a 1))) ∧
    Succeeds [rd] s t

/-- R130, R131: PBASEMUL writes the coordinates of the 256-step double-and-add on all 256 bits of its scalar. -/
def Obligations.PbasemulWritesDoubleAndAdd : Prop :=
  EncodedWithPoints 0x17 2 [8] (fun d a _ => .pbasemul d a) ∧
  ∀ (d : PReg) (ra : DReg) (s : State), ∃ t, exec (.pbasemul (num d) ra) s = .next t ∧
    HoldsPoint t d (baseMul (s.reg ra).toNat) ∧ Succeeds (quad d) s t

/-- R132, first fact: every extended result satisfies X·Y = Z·T, whatever the inputs. -/
def Obligations.ExtendedResultsSatisfyXYEqualsZT : Prop :=
  ∀ (d a b : PReg) (ra : DReg) (s t : State),
    exec (.padd (num d) (num a) (num b)) s = .next t ∨ exec (.pmadd (num d) (num a) (num b)) s = .next t ∨
    exec (.pdbl (num d) (num a)) s = .next t ∨ exec (.pbasemul (num d) ra) s = .next t ∨
    exec (.pldi (num d)) s = .next t ∨ exec (.pldb (num d)) s = .next t →
    (t.reg (at4 d 0)).toNat * (t.reg (at4 d 1)).toNat % P = (t.reg (at4 d 2)).toNat * (t.reg (at4 d 3)).toNat % P

/-- R126, corner case: for Q in P[b] with Z = 1 and T = X·Y, PTOPRE then PMADD writes the four slots PADD writes. -/
def Obligations.MixedAdditionAgreesWithAddition : Prop :=
  ∀ (d a b c : PReg) (s : State), c ≠ a → readFe s (at4 b 2) = 1 →
    readFe s (at4 b 3) = readFe s (at4 b 0) * readFe s (at4 b 1) →
    ∃ t u v, exec (.padd (num d) (num a) (num b)) s = .next t ∧ exec (.ptopre (num c) (num b)) s = .next u ∧
      exec (.pmadd (num d) (num a) (num c)) u = .next v ∧ ∀ k : Fin 4, v.reg (at4 d k) = t.reg (at4 d k)

/-! Ladder (42_ladder.md). -/

/-- R150, R151: LADDER writes the ladder's value for all bits 254 to 0 of the unclamped scalar. -/
def Obligations.LadderWritesSwapStepSwapBack : Prop :=
  EncodedAs 0x20 3 (fun d a b => .ladder d a b) ∧
  ∀ (rd ra rb : DReg) (s : State), ∃ t, exec (.ladder rd ra rb) s = .next t ∧
    Holds t rd (ladder (s.reg ra).toNat (readFe s rb)) ∧ Succeeds [rd] s t

/-- R153: LADDER writes the value of RFC 7748's deferred-swap ladder. -/
def Obligations.LadderAgreesWithDeferredSwap : Prop :=
  ∀ (rd ra rb : DReg) (s : State), ∃ t, exec (.ladder rd ra rb) s = .next t ∧
    Holds t rd (deferredLadder (s.reg ra).toNat (readFe s rb))

/-- R152: bit 255 of the scalar is ignored, bit 255 of u is discarded, and u is reduced mod p. -/
def Obligations.LadderIgnoresBit255 : Prop :=
  ∀ (rd ra rb : DReg) (s s' : State), low255 s ra = low255 s' ra → low255 s rb % P = low255 s' rb % P →
    ∃ t t', exec (.ladder rd ra rb) s = .next t ∧ exec (.ladder rd ra rb) s' = .next t' ∧ t.reg rd = t'.reg rd

/-- R152: u = 0, or a scalar whose bits 254 to 0 are 0, gives 0. -/
def Obligations.LadderOfZeroIsZero : Prop :=
  ∀ (rd ra rb : DReg) (s : State), low255 s rb % P = 0 ∨ low255 s ra = 0 →
    ∃ t, exec (.ladder rd ra rb) s = .next t ∧ t.reg rd = 0

/-- R152: k = 1 gives u. -/
def Obligations.LadderByOneReturnsU : Prop :=
  ∀ (rd ra rb : DReg) (s : State), s.reg ra = 1 →
    ∃ t, exec (.ladder rd ra rb) s = .next t ∧ (t.reg rd).toNat = low255 s rb % P

/-! HSalsa20 (43_hsalsa20.md). -/

/-- R161–R165: HSALSA writes the ten double-rounds' output of all 256 bits of its key, in the matrix form of the
rounds. -/
def Obligations.HsalsaWritesTenDoubleRounds : Prop :=
  EncodedAs 0x30 2 (fun d a _ => .hsalsa d a) ∧
  ∀ (rd ra : DReg) (s : State), ∃ t, exec (.hsalsa rd ra) s = .next t ∧
    (t.reg rd).toNat = hsalsa (s.reg ra) ∧ Succeeds [rd] s t

/-! Facade (44_facade.md). -/

/-- R170, R171: CLAMP clears bits 0–2 and 255, sets bit 254 and keeps every other bit. -/
def Obligations.ClampChangesOnlyItsBits : Prop :=
  EncodedAs 0x40 2 (fun d a _ => .clamp d a) ∧
  ∀ (rd ra : DReg) (s : State), ∃ t, exec (.clamp rd ra) s = .next t ∧ ClampOf (t.reg rd) (s.reg ra) ∧
    Succeeds [rd] s t

/-- R172: KEYGEN writes the clamp of one random draw, whatever the draw, and takes exactly one. The draw is the
model's free value (log 1): nothing is said about its bits. -/
def Obligations.KeygenWritesClampedDraw : Prop :=
  EncodedAs 0x41 1 (fun d _ _ => .keygen d) ∧
  ∀ (rd : DReg) (s : State), ∃ t, exec (.keygen rd) s = .next t ∧ ClampOf (t.reg rd) (Config.rng s.draws) ∧
    CompletedOk t ∧ FrameOutside [rd] s t ∧ t.draws = s.draws + 1

/-- R173: DERIVEPUB writes the u-coordinate of BaseMul of the clamped copy, which is what CLAMP, PBASEMUL and PTOU
write in sequence, and only its destination changes. -/
def Obligations.DerivepubEqualsUnitCommands : Prop :=
  EncodedAs 0x42 2 (fun d a _ => .derivepub d a) ∧
  ∀ (rd ra rc re : DReg) (d : PReg) (s : State),
    ∃ t t1 t2 t3, exec (.derivepub rd ra) s = .next t ∧
      (∀ c, ClampOf c (s.reg ra) → ∀ q : Point, q = Reference.baseMul c.toNat →
        Holds t rd ((q.Z + q.Y) * inv (q.Z - q.Y))) ∧
      exec (.clamp rc ra) s = .next t1 ∧
      exec (.pbasemul (num d) rc) t1 = .next t2 ∧ exec (.ptou re (num d)) t2 = .next t3 ∧
      t.reg rd = t3.reg re ∧ Succeeds [rd] s t

/-- R174: DERIVESHARED writes HSalsa20 of the encoded ladder value of the clamped copy, which is what CLAMP, LADDER and
HSALSA write in sequence, and only its destination changes. -/
def Obligations.DerivesharedEqualsUnitCommands : Prop :=
  EncodedAs 0x43 3 (fun d a b => .deriveshared d a b) ∧
  ∀ (rd ra rb rc re rf : DReg) (s : State), rc ≠ rb →
    ∃ t t1 t2 t3, exec (.deriveshared rd ra rb) s = .next t ∧
      (∀ c, ClampOf c (s.reg ra) → ∃ raw : Bytes32, (raw.toNat : F) = ladder c.toNat (readFe s rb) ∧ raw.toNat < P ∧
        (t.reg rd).toNat = hsalsa raw) ∧
      exec (.clamp rc ra) s = .next t1 ∧
      exec (.ladder re rc rb) t1 = .next t2 ∧ exec (.hsalsa rf re) t2 = .next t3 ∧
      t.reg rd = t3.reg rf ∧ Succeeds [rd] s t

/-- R173, R174: the facade's key derivations give the same result for a raw private key and its clamped form. -/
def Obligations.FacadeClampsACopy : Prop :=
  ∀ (rd ra rb rc : DReg) (s : State), rc ≠ rb →
    ∃ t1 t u t' u', exec (.clamp rc ra) s = .next t1 ∧ exec (.derivepub rd ra) s = .next t ∧
      exec (.derivepub rd rc) t1 = .next u ∧ exec (.deriveshared rd ra rb) s = .next t' ∧
      exec (.deriveshared rd rc rb) t1 = .next u' ∧ t.reg rd = u.reg rd ∧ t'.reg rd = u'.reg rd

/-! All commands. -/

/-- R210: every well-formed command, on every state, completes with ERRCODE 0, DONE 1, BUSY 0, leaves ERR, ACCERR, IE,
PEND and the host's side as they were, and writes no register but its destinations (R23, R26). -/
def Obligations.EveryCommandCompletesWithinItsFrame : Prop :=
  ∀ (i : Instr) (s : State), i.wf = true →
    ∃ t, exec i s = .next t ∧ CompletedOk t ∧ FrameOutside (dests i) s t

/-- R204, R205: the word of a command whose point field holds 4–15 decodes to INVALID_ARGUMENT. That exec of the
ill-formed command itself completes with code 3 and writes no register, as its word does, is the model's reading
(log 10). -/
def Obligations.PointOutOfRangeReportsInvalidArgument : Prop :=
  ∀ (i : Instr) (s : State), i.wf = false →
    exec i s = .next { s with errcode := 3, err := true, done := true, busy := false } ∧
    decode (encode i) = .error .invalidArgument

/-- R177: every command but KEYGEN is a function of its source registers alone. -/
def Obligations.ResultsDependOnSourcesAlone : Prop :=
  ∀ (i : Instr) (s s' : State), i.wf = true → (∀ rd, i ≠ .keygen rd) →
    (∀ r ∈ sources i, s.reg r = s'.reg r) →
    ∃ t t', exec i s = .next t ∧ exec i s' = .next t' ∧ ∀ r ∈ dests i, t.reg r = t'.reg r

/-- R27: every field result is below p, so bit 255 is 0. -/
def Obligations.FieldResultsAreCanonical : Prop :=
  ∀ (i : Instr) (s t : State), i.wf = true → writesField i = true → exec i s = .next t →
    ∀ r ∈ dests i, (t.reg r).toNat < P ∧ (t.reg r).getLsbD 255 = false

/-! Encoding (30_encoding.md). -/

/-- R91, R85: the decoder gives back every well-formed command from its word. -/
def Obligations.DecodeGivesBackEncoded : Prop :=
  ∀ i : Instr, i.wf = true → decode (encode i) = .ok i

/-- R88: a word the decoder takes is the word of exactly that command, and the command's registers exist. -/
def Obligations.DecodedWordIsItsEncoding : Prop :=
  ∀ (w : Word) (i : Instr), decode w = .ok i → encode i = w ∧ i.wf = true

/-- R85–R87, R205, R206: which code each of the 2^32 words completes with, in the priority 1, 2, 3. -/
def Obligations.CompletionCodePriority : Prop :=
  ∀ w : Word,
    (w.toNat % 256 ∉ assigned → completionCode w = 1) ∧
    (w.toNat % 256 ∈ assigned → w.toNat / 2 ^ (8 + 4 * usedFields (w.toNat % 256)) ≠ 0 → completionCode w = 2) ∧
    (w.toNat % 256 ∈ assigned → w.toNat / 2 ^ (8 + 4 * usedFields (w.toNat % 256)) = 0 → BadPoint w.toNat →
      completionCode w = 3) ∧
    (w.toNat % 256 ∈ assigned → w.toNat / 2 ^ (8 + 4 * usedFields (w.toNat % 256)) = 0 → ¬ BadPoint w.toNat →
      completionCode w = 0)

/-- R89 and the table of 95_test_vectors.md L2.0: words written out from the fields decode as the spec says. -/
def Obligations.SpecWordsDecode : Prop :=
  decode 0x00010201 = .ok (.fadd 2 0 1) ∧ decode 0x00003117 = .ok (.pbasemul 1 3) ∧
  decode 0x00001016 = .ok (.ptou 0 1) ∧ decode 0x00000541 = .ok (.keygen 5) ∧
  decode 0x00001043 = .ok (.deriveshared 0 1 0) ∧ decode 0x00020213 = .ok (.pmadd 2 0 2) ∧
  decode 0xFFFFFFFF = .error .illegalOpcode ∧ decode 0x00100412 = .error .reservedField ∧
  decode 0x00000412 = .error .invalidArgument

/-- R89: the assembler reads back the text of every well-formed command as its word. -/
def Obligations.AssemblerReadsBackItsText : Prop :=
  ∀ i : Instr, i.wf = true → assemble (disassemble i) = some (encode i)

/-! The engine's step (60_exceptions.md; 10_state.md R33). -/

/-- R33, R85, R210: with BUSY = 1 and the engine next (its turn, or no turn left), step runs the decoded command; the
step adds only the consumed turn. Any other turn is the event of its agent. The schedule is the model's (logs 2, 3). -/
def Obligations.StepRunsDecodedCommand : Prop :=
  ∀ s : State,
    (∀ i, s.busy = true → decode s.pend = .ok i →
      (s.turns = [] → step s = exec i s) ∧
      (∀ ts, s.turns = .engine :: ts → step s = exec i { s with turns := ts })) ∧
    (∀ x ts, s.turns = x :: ts → step s = takeTurn x { s with turns := ts })

/-- R204: in the engine's turn a word that does not decode completes with its code, ERR and DONE set, BUSY clear and
no register written. -/
def Obligations.BadWordCompletesWithError : Prop :=
  ∀ (s : State) (e : DecodeError), s.busy = true → decode s.pend = .error e →
    takeTurn .engine s = .next { s with errcode := e.code, err := true, done := true, busy := false } ∧
    e.code = completionCode s.pend

/-- No step of the machine stops: every state has a next state. That nothing stops is the model's deduction (log 14)
from R200 and R203 for commands, R88 for words, R56 for accesses and R231 for resets. -/
def Obligations.EveryStepAnswersNext : Prop := ∀ s : State, ∃ t, step s = .next t

/-- R33: only an accepted CMD write and a reset change PEND. -/
def Obligations.OnlyCmdWriteAndResetChangePend : Prop :=
  ∀ s t : State, step s = .next t → t.pend ≠ s.pend →
    (∃ x ts, s.turns = x :: ts ∧ IsReset x ∧ t.pend = 0) ∨
    (∃ v ts, s.turns = .host (.write ⟨0x010, 4, 0xF⟩ v) :: ts ∧ s.busy = false ∧ t.pend = v)

/-- STATUS stays consistent with PEND: `State.Coherent` is kept by every step (R63, R201, R202, R204, R210). -/
def Obligations.StepKeepsStatusCoherent : Prop :=
  ∀ s t : State, s.Coherent → step s = .next t → t.Coherent

/-- `State.Coherent` holds after reset. -/
def Obligations.ResetIsCoherent : Prop := State.reset.Coherent

/-- R247: once the host's turns are used up, the enabled engine step has occurred: one step more than there are turns
ends with BUSY = 0. The order of the steps is the model's (log 3). -/
def Obligations.EveryScheduleEndsIdle : Prop :=
  ∀ s : State, ∃ t, core.run (s.turns.length + 1) s = .next t ∧ t.busy = false ∧ t.turns = []

/-! The window (20_memory.md; 10_state.md). Each statement is about the host's turn with a whole-word access. -/

/-- R31, R58: ID, VERSION, CTRL, STATUS and CMD reads return their words at any time and change nothing. -/
def Obligations.ControlReadsReturnTheirWords : Prop :=
  ∀ s : State,
    hostRead ⟨0x000, 4, 0xF⟩ s = (.word 0x45434448, s) ∧ hostRead ⟨0x004, 4, 0xF⟩ s = (.word 0x00000001, s) ∧
    hostRead ⟨0x008, 4, 0xF⟩ s = (.word (BitVec.ofNat 32 (2 * s.ie.toNat)), s) ∧
    hostRead ⟨0x00C, 4, 0xF⟩ s = (.word (BitVec.ofNat 32 (s.busy.toNat + 2 * s.done.toNat + 4 * s.err.toNat +
      8 * s.accerr.toNat + 256 * s.errcode.toNat)), s) ∧
    hostRead ⟨0x010, 4, 0xF⟩ s = (.word s.pend, s)

/-- R29, R231: a CTRL write sets IE to v[1]; with v[0] = 1 every piece of state takes its reset value, IE included. -/
def Obligations.CtrlWriteSetsIeOrResets : Prop :=
  ∀ (s : State) (v : Word),
    (v.getLsbD 0 = false →
      hostWrite ⟨0x008, 4, 0xF⟩ v s = (.done, { s with ie := v.getLsbD 1 })) ∧
    (v.getLsbD 0 = true → ∀ t, (hostWrite ⟨0x008, 4, 0xF⟩ v s).2 = t →
      (∀ i, t.reg i = 0) ∧ t.ie = false ∧ t.busy = false ∧ t.done = false ∧ t.err = false ∧ t.accerr = false ∧
      t.errcode = 0 ∧ t.pend = 0)

/-- R30, R59: a STATUS write clears exactly the W1C bits written 1; ID and VERSION writes are ignored. -/
def Obligations.StatusWriteClearsOnlyW1cBits : Prop :=
  ∀ (s : State) (v : Word),
    hostWrite ⟨0x00C, 4, 0xF⟩ v s =
      (.done, { s with
        done := if v.getLsbD 1 then false else s.done
        err := if v.getLsbD 2 then false else s.err
        accerr := if v.getLsbD 3 then false else s.accerr }) ∧
    hostWrite ⟨0x000, 4, 0xF⟩ v s = (.done, s) ∧ hostWrite ⟨0x004, 4, 0xF⟩ v s = (.done, s)

/-- R63: a CMD write while idle latches the word, clears DONE and sets BUSY; while busy it only sets ACCERR. -/
def Obligations.CmdWriteLaunchesOrFlags : Prop :=
  ∀ (s : State) (v : Word),
    (s.busy = false →
      hostWrite ⟨0x010, 4, 0xF⟩ v s = (.done, { s with pend := v, done := false, busy := true })) ∧
    (s.busy = true → hostWrite ⟨0x010, 4, 0xF⟩ v s = (.done, { s with accerr := true }))

/-- R53, R61: while idle, the word at 0x100 + 32·i + 4·w reads bits 32w+31 to 32w of D[i], and a write replaces
exactly those bits. -/
def Obligations.DataWindowIdleAccess : Prop :=
  ∀ (s : State) (off : BitVec 10) (v : Word) (i : DReg) (w : Fin 8), s.busy = false →
    off.toNat = 0x100 + 32 * i.val + 4 * w.val →
    hostRead ⟨off, 4, 0xF⟩ s = (.word (BitVec.ofNat 32 ((s.reg i).toNat / 2 ^ (32 * w.val))), s) ∧
    ∃ t, hostWrite ⟨off, 4, 0xF⟩ v s = (.done, t) ∧ { t with d := s.d } = s ∧
      (∀ j, j ≠ i → t.reg j = s.reg j) ∧
      ∀ b, b < 256 → (t.reg i).getLsbD b =
        if 32 * w.val ≤ b ∧ b < 32 * w.val + 32 then v.getLsbD (b - 32 * w.val) else (s.reg i).getLsbD b

/-- R62: while busy, a data-window read returns 0 and a write is dropped; both set ACCERR and nothing else. -/
def Obligations.DataWindowBusyAccess : Prop :=
  ∀ (s : State) (off : BitVec 10) (v : Word), s.busy = true → 0x100 ≤ off.toNat → off.toNat ≤ 0x2FC →
    off.toNat % 4 = 0 →
    hostRead ⟨off, 4, 0xF⟩ s = (.word 0, { s with accerr := true }) ∧
    hostWrite ⟨off, 4, 0xF⟩ v s = (.done, { s with accerr := true })

/-- R54–R57: an access that is not 32 bits with all byte enables, or is misaligned, or is unmapped, is answered with
BusError, a read with data 0, and changes nothing. -/
def Obligations.BadAccessIsBusErrorWithoutEffect : Prop :=
  ∀ (s : State) (a : Access) (v : Word),
    a.size ≠ 4 ∨ a.enables ≠ 0xF ∨ a.off.toNat % 4 ≠ 0 ∨ (0x014 ≤ a.off.toNat ∧ a.off.toNat ≤ 0x0FF) ∨
      0x300 ≤ a.off.toNat →
    hostRead a s = (.busError, s) ∧ (hostRead a s).1.rdata = 0 ∧ hostWrite a v s = (.busError, s)

/-- R64: no read changes anything but ACCERR, and that only for a whole-word data-window read while busy. -/
def Obligations.ReadsChangeAtMostAccerr : Prop :=
  ∀ (s t : State) (a : Access) (r : Response), hostRead a s = (r, t) →
    { t with accerr := s.accerr } = s ∧
    (t ≠ s → s.busy = true ∧ t.accerr = true ∧ a.size = 4 ∧ 0x100 ≤ a.off.toNat ∧ a.off.toNat < 0x300)

/-- R69, R62: while BUSY = 1 no host access but a soft reset changes a data register, PEND or BUSY. -/
def Obligations.RunningCommandIsFrozen : Prop :=
  ∀ (s : State) (h : HostAction), s.busy = true → ¬ IsReset (.host h) →
    (hostTurn h s).d = s.d ∧ (hostTurn h s).pend = s.pend ∧ (hostTurn h s).busy = true

/-- R62, R218: while a command is pending, no sequence of host accesses and resets learns anything of the data
registers: two runs that differ only in them answer every access alike. -/
def Obligations.BusyWindowHidesRegisters : Prop :=
  ∀ (ts : List Turn) (s : State) (d' : Vector Bytes32 16), s.busy = true → Turn.engine ∉ ts →
    ∃ t t', core.run ts.length { s with turns := ts } = .next t ∧
      core.run ts.length { s with turns := ts, d := d' } = .next t' ∧ t.resp = t'.resp

/-- R60, R90: WRD writes a register whole from eight word writes, whatever it held, and RDD's w-th read returns its
w-th word. -/
def Obligations.WordWritesAssembleTheRegister : Prop :=
  ∀ (s : State) (n : DReg) (b : Bytes32) (w : Fin 8), s.busy = false →
    ∃ t u, core.run 8 { s with turns := macroWrd n b } = .next t ∧ t.reg n = b ∧
      (∀ j, j ≠ n → t.reg j = s.reg j) ∧
      core.run (w.val + 1) { t with turns := macroRdd n } = .next u ∧
      u.resp = some (.word (BitVec.ofNat 32 (b.toNat / 2 ^ (32 * w.val)))) ∧ u.d = t.d

/-- R90, R66: EXEC of a command from idle, with any number of polls before the step, ends idle with the registers the
command writes and a STATUS word that CHECK accepts. The finite number of polls is the model's form of WAIT (log 16). -/
def Obligations.ExecMacroRunsTheCommand : Prop :=
  ∀ (s : State) (i : Instr) (polls : Nat), s.busy = false → i.wf = true →
    ∃ t u v, core.run (polls + 3) { s with turns := macroExec i polls } = .next t ∧ exec i s = .next u ∧
      t.d = u.d ∧ t.busy = false ∧ t.resp = some (.word v) ∧ checkOk v = true ∧ v.getLsbD 0 = false

/-- R34, R211: after the engine's step, on success and on error alike, irq equals IE. -/
def Obligations.CompletionRaisesIrqIfEnabled : Prop :=
  ∀ (s : State) (ts : List Turn), s.busy = true → s.turns = .engine :: ts →
    ∃ t, step s = .next t ∧ t.irq = s.ie ∧ t.done = true

/-- R34, R212: irq is DONE AND IE; it falls when DONE is written 1, when a CMD write is accepted, when IE is written 0,
and at either reset; setting IE while DONE = 1 raises it at once. -/
def Obligations.IrqFollowsDoneAndIe : Prop :=
  ∀ (s : State) (v : Word),
    (s.irq = true ↔ s.done = true ∧ s.ie = true) ∧
    (v.getLsbD 1 = true → (hostWrite ⟨0x00C, 4, 0xF⟩ v s).2.irq = false) ∧
    (s.busy = false → (hostWrite ⟨0x010, 4, 0xF⟩ v s).2.irq = false) ∧
    (v.getLsbD 1 = false ∨ v.getLsbD 0 = true → (hostWrite ⟨0x008, 4, 0xF⟩ v s).2.irq = false) ∧
    (v.getLsbD 1 = true → v.getLsbD 0 = false → (hostWrite ⟨0x008, 4, 0xF⟩ v s).2.irq = s.done) ∧
    (∀ t, takeTurn .rstN s = .next t → t.irq = false)

/-- R232: a reset by either source discards a pending command: the engine turn that follows does nothing; and a reset
that falls after the engine's step clears the results. Either way every register is 0 and DONE is 0. -/
def Obligations.ResetDiscardsPendingCommand : Prop :=
  ∀ (s : State) (x : Turn), s.busy = true → IsReset x →
    (∃ t, takeTurn x s = .next t ∧ takeTurn .engine t = .next t ∧
      (∀ i, t.reg i = 0) ∧ t.done = false ∧ t.busy = false) ∧
    (∃ t u, takeTurn .engine s = .next t ∧ takeTurn x t = .next u ∧
      (∀ i, u.reg i = 0) ∧ u.done = false ∧ u.busy = false)

/-- R38, R231: the values of State.reset, and of the state after rst_n and after a CTRL write with bit 0 set. That a
reset keeps the model's own fields is its choice (log 13) and is not stated. -/
def Obligations.ResetValues : Prop :=
  ∀ s t : State, t = State.reset ∨ takeTurn .rstN s = .next t ∨
      (∃ v : Word, v.getLsbD 0 = true ∧ t = (hostWrite ⟨0x008, 4, 0xF⟩ v s).2) →
    (∀ i : DReg, t.reg i = 0) ∧ t.ie = false ∧ t.busy = false ∧ t.done = false ∧ t.err = false ∧ t.accerr = false ∧
      t.errcode = 0 ∧ t.pend = 0 ∧ t.irq = false ∧ hostRead ⟨0x008, 4, 0xF⟩ t = (.word 0, t) ∧
      hostRead ⟨0x000, 4, 0xF⟩ t = (.word 0x45434448, t) ∧ hostRead ⟨0x004, 4, 0xF⟩ t = (.word 0x00000001, t)
end

