-- ==== Sys2Proof/Laws/Bytes.lean ====
section
/-! SUPPORT. The bits of a 32-byte string after a byte or a word of it was read or replaced. -/

namespace Sys2Proof.Machine

/-- Bit k of word w is bit 32w + k of the string (20_memory.md R53). -/
@[simp] theorem getLsbD_wordAt (b : Bytes32) (w : Fin 8) (k : Nat) :
    (wordAt b w).getLsbD k = (decide (k < 32) && b.getLsbD (32 * w.val + k)) := by
  simp [wordAt]

/-- Bit k of byte j is bit 8j + k of the string (20_memory.md R52). -/
@[simp] theorem getLsbD_byteAt (b : Bytes32) (j : Fin 32) (k : Nat) :
    (byteAt b j).getLsbD k = (decide (k < 8) && b.getLsbD (8 * j.val + k)) := by
  simp [byteAt]

/-- Replacing word w replaces exactly its 32 bits (20_memory.md R61). -/
theorem getLsbD_setWordAt (b : Bytes32) (w : Fin 8) (v : Word) {k : Nat} (hk : k < 256) :
    (setWordAt b w v).getLsbD k =
      if 32 * w.val ≤ k ∧ k < 32 * w.val + 32 then v.getLsbD (k - 32 * w.val) else b.getLsbD k := by
  have ones : ∀ m, (0xFFFFFFFF#256).getLsbD m = decide (m < 32) := by
    intro m
    rw [show (0xFFFFFFFF#256) = (BitVec.allOnes 32).setWidth 256 by decide, BitVec.getLsbD_setWidth,
      BitVec.getLsbD_allOnes, ← Bool.decide_and, decide_eq_decide]
    omega
  simp only [setWordAt, BitVec.getLsbD_or, BitVec.getLsbD_and, BitVec.getLsbD_not, BitVec.getLsbD_shiftLeft, ones,
    BitVec.getLsbD_setWidth, hk, decide_true, Bool.true_and]
  by_cases h1 : k < 32 * w.val
  · simp [h1, Nat.not_le.mpr h1]
  · by_cases h2 : k < 32 * w.val + 32
    · have h3 : k - 32 * w.val < 32 := by omega
      have h4 : k - 32 * w.val < 256 := by omega
      simp [h1, h2, h3, h4, Nat.not_lt.mp h1]
    · have h3 : ¬ k - 32 * w.val < 32 := by omega
      have h4 : v.getLsbD (k - 32 * w.val) = false := BitVec.getLsbD_of_ge _ _ (by omega)
      simp [h1, h2, h3, h4]

/-- Replacing byte j replaces exactly its 8 bits. -/
theorem getLsbD_setByteAt (b : Bytes32) (j : Fin 32) (x : Byte) {k : Nat} (hk : k < 256) :
    (setByteAt b j x).getLsbD k =
      if 8 * j.val ≤ k ∧ k < 8 * j.val + 8 then x.getLsbD (k - 8 * j.val) else b.getLsbD k := by
  have ones : ∀ m, (0xFF#256).getLsbD m = decide (m < 8) := by
    intro m
    rw [show (0xFF#256) = (BitVec.allOnes 8).setWidth 256 by decide, BitVec.getLsbD_setWidth,
      BitVec.getLsbD_allOnes, ← Bool.decide_and, decide_eq_decide]
    omega
  simp only [setByteAt, BitVec.getLsbD_or, BitVec.getLsbD_and, BitVec.getLsbD_not, BitVec.getLsbD_shiftLeft, ones,
    BitVec.getLsbD_setWidth, hk, decide_true, Bool.true_and]
  by_cases h1 : k < 8 * j.val
  · simp [h1, Nat.not_le.mpr h1]
  · by_cases h2 : k < 8 * j.val + 8
    · have h3 : k - 8 * j.val < 8 := by omega
      have h4 : k - 8 * j.val < 256 := by omega
      simp [h1, h2, h3, h4, Nat.not_lt.mp h1]
    · have h3 : ¬ k - 8 * j.val < 8 := by omega
      have h4 : x.getLsbD (k - 8 * j.val) = false := BitVec.getLsbD_of_ge _ _ (by omega)
      simp [h1, h2, h3, h4]

/-- The word just written reads back. -/
@[simp] theorem wordAt_setWordAt_self (b : Bytes32) (w : Fin 8) (v : Word) : wordAt (setWordAt b w v) w = v := by
  apply BitVec.eq_of_getLsbD_eq
  intro k hk
  rw [getLsbD_wordAt, getLsbD_setWordAt _ _ _ (by omega)]
  simp [hk]

/-- Every other word is unchanged. -/
theorem wordAt_setWordAt_ne (b : Bytes32) (w x : Fin 8) (v : Word) (h : x ≠ w) :
    wordAt (setWordAt b w v) x = wordAt b x := by
  have hv : x.val ≠ w.val := fun e => h (Fin.ext e)
  apply BitVec.eq_of_getLsbD_eq
  intro k hk
  rw [getLsbD_wordAt, getLsbD_setWordAt _ _ _ (by omega), getLsbD_wordAt, if_neg (by omega)]

/-- Eight equal words are equal strings. -/
theorem bytes_ext_words (a b : Bytes32) (h : ∀ w, wordAt a w = wordAt b w) : a = b := by
  apply BitVec.eq_of_getLsbD_eq
  intro k hk
  have hw := congrArg (fun v => v.getLsbD (k % 32)) (h ⟨k / 32, by omega⟩)
  simp only [getLsbD_wordAt, show k % 32 < 32 from Nat.mod_lt _ (by decide), decide_true, Bool.true_and,
    Nat.div_add_mod] at hw
  exact hw

/-- Clamp, bit by bit (44_facade.md R170). -/
theorem getLsbD_clampBytes (b : Bytes32) {k : Nat} (hk : k < 256) :
    (clampBytes b).getLsbD k = if k < 3 ∨ k = 255 then false else if k = 254 then true else b.getLsbD k := by
  have z : (8 * (0 : Fin 32).val) = 0 := rfl
  have t : (8 * (31 : Fin 32).val) = 248 := rfl
  have step : ∀ (c : Bytes32) (j : Fin 32) (x : Byte), (setByteAt c j x).getLsbD k =
      if 8 * j.val ≤ k ∧ k < 8 * j.val + 8 then x.getLsbD (k - 8 * j.val) else c.getLsbD k :=
    fun c j x => getLsbD_setByteAt c j x hk
  by_cases hhi : 248 ≤ k
  · have hm : k - 248 < 8 := by omega
    have e : 248 + (k - 248) = k := by omega
    have h0 : ¬ (0 ≤ k ∧ k < 8) := by omega
    have h31 : 248 ≤ k ∧ k < 256 := by omega
    simp only [clampBytes, step, z, t, BitVec.getLsbD_or, BitVec.getLsbD_and, getLsbD_byteAt, e, hm, decide_true,
      Bool.true_and, if_pos h31, Nat.reduceAdd, if_neg h0]
    have hb : ∀ m, m < 8 → (0x7F : Byte).getLsbD m = decide (m < 7) ∧ (0x40 : Byte).getLsbD m = decide (m = 6) := by decide
    rw [(hb _ hm).1, (hb _ hm).2]
    by_cases h255 : k = 255
    · subst h255; simp
    · by_cases h254 : k = 254
      · subst h254; simp
      · have e1 : ¬ (k < 3 ∨ k = 255) := by omega
        have e2 : k - 248 < 7 := by omega
        have e3 : ¬ k - 248 = 6 := by omega
        rw [if_neg e1, if_neg h254, decide_eq_true e2, decide_eq_false e3, Bool.and_true, Bool.or_false]
  · have h31 : ¬ (248 ≤ k ∧ k < 256) := by omega
    have e2 : ¬ k = 254 := by omega
    simp only [clampBytes, step, z, t, Nat.reduceAdd, if_neg h31, if_neg e2]
    by_cases hlo : k < 8
    · have hb : ∀ m, m < 8 → (0xF8 : Byte).getLsbD m = decide (3 ≤ m) := by decide
      simp only [hlo, Nat.zero_le, and_self, if_true, Nat.sub_zero, BitVec.getLsbD_and, getLsbD_byteAt, z, Nat.zero_add,
        hb _ hlo, decide_true, Bool.true_and]
      by_cases h3 : k < 3
      · have e3 : ¬ 3 ≤ k := by omega
        simp [h3, e3]
      · have e3 : 3 ≤ k := by omega
        have e4 : ¬ k = 255 := by omega
        simp [h3, e3, e4]
    · rw [if_neg (by omega), if_neg (by omega)]

end Sys2Proof.Machine
end

