-- ==== Sys2Proof/Laws/Decode.lean ====
section
/-! SUPPORT. The fields and checks of the decoder as arithmetic on the word's value, and the search of the opcode
table. -/

namespace Sys2Proof

/-- The opcode table finds each operation by its own code: no two rows share one (30_encoding.md R84). -/
@[simp] theorem opOf?_code (op : Op) : opOf? op.code = some op := by
  cases op <;> decide

/-- A row found in the table has the code that was looked for. -/
theorem code_of_opOf? {c : BitVec 8} {op : Op} (h : opOf? c = some op) : op.code = c := by
  have := List.find?_some h
  simpa using this

theorem opField_toNat (w : Word) : (opField w).toNat = w.toNat % 256 := by
  simp [opField]

theorem indexField_val (lo : Nat) (w : Word) : (indexField lo w).val = w.toNat / 2 ^ lo % 16 := by
  simp [indexField, Nat.shiftRight_eq_div_pow]

/-- A mask of the bits from n on meets w in nothing exactly when w is below 2^n. -/
theorem and_highBits_eq_zero {m w : Word} {n : Nat} (hm : ∀ k, k < 32 → m.getLsbD k = decide (n ≤ k)) :
    w &&& m = 0 ↔ w.toNat / 2 ^ n = 0 := by
  have key : w &&& m = (w >>> n) <<< n := by
    apply BitVec.eq_of_getLsbD_eq
    intro k hk
    rw [BitVec.getLsbD_and, hm k hk, BitVec.getLsbD_shiftLeft, BitVec.getLsbD_ushiftRight]
    by_cases h : n ≤ k
    · have e : n + (k - n) = k := by omega
      simp [h, hk, e]
    · simp [h, Nat.lt_of_not_le h]
  have hw := w.isLt
  have hle : w.toNat / 2 ^ n * 2 ^ n ≤ w.toNat := Nat.div_mul_le_self _ _
  rw [key, ← BitVec.toNat_inj, BitVec.toNat_shiftLeft, BitVec.toNat_ushiftRight, Nat.shiftLeft_eq,
    Nat.shiftRight_eq_div_pow, Nat.mod_eq_of_lt (by omega)]
  simp only [BitVec.ofNat_eq_ofNat, BitVec.toNat_ofNat, Nat.zero_mod, Nat.mul_eq_zero]
  exact or_iff_left (Nat.pos_iff_ne_zero.mp (Nat.two_pow_pos n))

/-- The lowest bit above the fields a format uses (30_encoding.md R81, R82). -/
def Format.top : Format → Nat
  | .f3 => 20
  | .f2 => 16
  | .f1 => 12
  | .p3 => 20
  | .p2 => 16
  | .p1 => 12
  | .up => 16
  | .ps => 16

/-- The reserved-field check of 30_encoding.md R85 as a bound: nothing stands above the format's fields. -/
theorem reserved_eq_zero (f : Format) (w : Word) :
    w &&& f.mask &&& ~~~0x000000FF#32 = 0 ↔ w.toNat / 2 ^ f.top = 0 := by
  rw [BitVec.and_assoc]
  cases f <;> exact and_highBits_eq_zero (by decide)

/-- A packed word's value (30_encoding.md R81). -/
theorem packWord_toNat (op : Op) (rd ra rb : Fin 16) :
    (packWord op rd ra rb).toNat = rb.val * 2 ^ 16 + ra.val * 2 ^ 12 + rd.val * 2 ^ 8 + op.code.toNat := by
  have h := op.code.isLt
  rw [packWord, BitVec.toNat_ofNat, Nat.mod_eq_of_lt (by omega)]

/-! The decoder by its checks, in their order (30_encoding.md R85; 60_exceptions.md R206). -/

/-- Check 1: the opcode is unassigned. -/
theorem decode_of_no_op {w : Word} (h : opOf? (opField w) = none) : decode w = .error .illegalOpcode := by
  simp [decode, h]

/-- Check 2: something stands above the fields of the format. -/
theorem decode_of_reserved {w : Word} {op : Op} (h : opOf? (opField w) = some op)
    (hr : w.toNat / 2 ^ op.format.top ≠ 0) : decode w = .error .reservedField := by
  simp only [decode, h]
  exact if_pos fun e => hr ((reserved_eq_zero _ _).mp e)

/-- Check 3: a point field names no point register. -/
theorem decode_of_bad_point {w : Word} {op : Op} (h : opOf? (opField w) = some op)
    (hr : w.toNat / 2 ^ op.format.top = 0)
    (hp : op.format.pointsLegal (rdField w) (raField w) (rbField w) = false) : decode w = .error .invalidArgument := by
  simp only [decode, h]
  rw [if_neg (not_not_intro ((reserved_eq_zero _ _).mpr hr)), hp]
  rfl

/-- No check fails: the command of the fields. -/
theorem decode_of_legal {w : Word} {op : Op} (h : opOf? (opField w) = some op)
    (hr : w.toNat / 2 ^ op.format.top = 0)
    (hp : op.format.pointsLegal (rdField w) (raField w) (rbField w) = true) :
    decode w = .ok (op.build (rdField w) (raField w) (rbField w)) := by
  simp only [decode, h]
  rw [if_neg (not_not_intro ((reserved_eq_zero _ _).mpr hr)), hp]
  rfl

end Sys2Proof
end

