-- ==== Sys2Proof/Laws/Field.lean ====
section
/-! SUPPORT. What the readings and the encoding of field elements give as integers, and that square-and-multiply
computes the power of 00_scope.md R14. -/

namespace Sys2Proof.Machine

theorem prime_lt : prime < 2 ^ 255 := by decide

@[simp] theorem feOfNat_val (n : Nat) : (feOfNat n).val = n % prime := rfl

/-- `fe(b)` as an integer (00_scope.md R13). -/
@[simp] theorem fe_val (b : Bytes32) : (fe b).val = b.toNat % 2 ^ 255 % prime := rfl

/-- `enc(x)` as an integer (00_scope.md R13). -/
@[simp] theorem enc_toNat (x : Fe) : (enc x).toNat = x.val := by
  have h := x.isLt
  have hp := prime_lt
  rw [enc, BitVec.toNat_ofNat, Nat.mod_eq_of_lt (by omega)]

/-- Decoding an encoding gives the element back (00_scope.md R13). -/
@[simp] theorem fe_enc (x : Fe) : fe (enc x) = x := by
  have h := x.isLt
  have hp := prime_lt
  apply Fin.ext
  rw [fe_val, enc_toNat, Nat.mod_eq_of_lt (a := x.val) (by omega), Nat.mod_eq_of_lt h]

/-- An encoding is canonical: below p (10_state.md R27). -/
theorem enc_lt (x : Fe) : (enc x).toNat < prime := by rw [enc_toNat]; exact x.isLt

/-- The loop of square-and-multiply: n steps raise `acc` to 2^n and multiply by a to the low n bits of e. -/
theorem fePowFrom_val (a : Fe) (e n : Nat) (acc : Fe) :
    (fePowFrom a e n acc).val = acc.val ^ 2 ^ n * a.val ^ (e % 2 ^ n) % prime := by
  induction n generalizing acc with
  | zero => simp [fePowFrom, Nat.mod_one, Nat.mod_eq_of_lt acc.isLt]
  | succ n ih =>
    have hmod : e % 2 ^ (n + 1) = e % 2 ^ n + 2 ^ n * (e.testBit n).toNat := by
      rw [Nat.pow_succ, Nat.mod_mul, Nat.testBit, Nat.shiftRight_eq_div_pow, Nat.and_comm, Nat.and_one_is_mod]
      rcases Nat.mod_two_eq_zero_or_one (e / 2 ^ n) with h | h <;> simp [h]
    have hsq : acc.val ^ 2 ^ (n + 1) = (acc.val * acc.val) ^ 2 ^ n := by
      rw [Nat.pow_succ', Nat.pow_mul, Nat.pow_two]
    rw [fePowFrom, ih, hmod, hsq]
    cases e.testBit n
    · simp only [Bool.false_eq_true, if_false, Bool.toNat_false, Nat.mul_zero, Nat.add_zero, Fin.val_mul]
      exact Nat.ModEq.mul_right _ (Nat.ModEq.pow _ (Nat.mod_modEq _ _))
    · simp only [if_true, Bool.toNat_true, Nat.mul_one, Fin.val_mul]
      have h : (acc.val * acc.val % prime * a.val % prime) ^ 2 ^ n ≡ (acc.val * acc.val * a.val) ^ 2 ^ n [MOD prime] :=
        Nat.ModEq.pow _ ((Nat.mod_modEq _ _).trans (Nat.ModEq.mul_right _ (Nat.mod_modEq _ _)))
      have e : (acc.val * acc.val * a.val) ^ 2 ^ n * a.val ^ (e % 2 ^ n) =
          (acc.val * acc.val) ^ 2 ^ n * a.val ^ (e % 2 ^ n + 2 ^ n) := by
        rw [Nat.pow_add, Nat.mul_pow (acc.val * acc.val), Nat.mul_assoc, Nat.mul_comm (a.val ^ 2 ^ n)]
      exact e ▸ Nat.ModEq.mul_right _ h

/-- `inv(a) = a^(p−2) mod p` (00_scope.md R14; 40_field.md R104). -/
theorem feInv_val (a : Fe) : (feInv a).val = a.val ^ (prime - 2) % prime := by
  have h1 : 1 % prime = 1 := by decide
  have h2 : (prime - 2) % 2 ^ 255 = prime - 2 := by decide
  rw [feInv, fePowFrom_val, feOfNat_val, h1, h2, Nat.one_pow, Nat.one_mul]

end Sys2Proof.Machine
end

