-- ==== Sys2Proof/Laws/State.lean ====
section
/-! SUPPORT. One lemma per field per named update of the state, true by rfl, so that no proof unfolds a record
update; and the reading of a register after each update. -/

namespace Sys2Proof.Machine

variable (s : State)

/-! `State.setReg` -/

@[simp] theorem setReg_d (i : DReg) (v : Bytes32) : (s.setReg i v).d = s.d.set i.val v := rfl
@[simp] theorem setReg_ie (i : DReg) (v : Bytes32) : (s.setReg i v).ie = s.ie := rfl
@[simp] theorem setReg_busy (i : DReg) (v : Bytes32) : (s.setReg i v).busy = s.busy := rfl
@[simp] theorem setReg_done (i : DReg) (v : Bytes32) : (s.setReg i v).done = s.done := rfl
@[simp] theorem setReg_err (i : DReg) (v : Bytes32) : (s.setReg i v).err = s.err := rfl
@[simp] theorem setReg_accerr (i : DReg) (v : Bytes32) : (s.setReg i v).accerr = s.accerr := rfl
@[simp] theorem setReg_errcode (i : DReg) (v : Bytes32) : (s.setReg i v).errcode = s.errcode := rfl
@[simp] theorem setReg_pend (i : DReg) (v : Bytes32) : (s.setReg i v).pend = s.pend := rfl
@[simp] theorem setReg_draws (i : DReg) (v : Bytes32) : (s.setReg i v).draws = s.draws := rfl
@[simp] theorem setReg_turns (i : DReg) (v : Bytes32) : (s.setReg i v).turns = s.turns := rfl
@[simp] theorem setReg_resp (i : DReg) (v : Bytes32) : (s.setReg i v).resp = s.resp := rfl

/-! `State.completeOk` -/

@[simp] theorem completeOk_d : (s.completeOk).d = s.d := rfl
@[simp] theorem completeOk_ie : (s.completeOk).ie = s.ie := rfl
@[simp] theorem completeOk_busy : (s.completeOk).busy = false := rfl
@[simp] theorem completeOk_done : (s.completeOk).done = true := rfl
@[simp] theorem completeOk_err : (s.completeOk).err = s.err := rfl
@[simp] theorem completeOk_accerr : (s.completeOk).accerr = s.accerr := rfl
@[simp] theorem completeOk_errcode : (s.completeOk).errcode = 0 := rfl
@[simp] theorem completeOk_pend : (s.completeOk).pend = s.pend := rfl
@[simp] theorem completeOk_draws : (s.completeOk).draws = s.draws := rfl
@[simp] theorem completeOk_turns : (s.completeOk).turns = s.turns := rfl
@[simp] theorem completeOk_resp : (s.completeOk).resp = s.resp := rfl

/-! `State.completeError` -/

@[simp] theorem completeError_d (e : DecodeError) : (s.completeError e).d = s.d := rfl
@[simp] theorem completeError_ie (e : DecodeError) : (s.completeError e).ie = s.ie := rfl
@[simp] theorem completeError_busy (e : DecodeError) : (s.completeError e).busy = false := rfl
@[simp] theorem completeError_done (e : DecodeError) : (s.completeError e).done = true := rfl
@[simp] theorem completeError_err (e : DecodeError) : (s.completeError e).err = true := rfl
@[simp] theorem completeError_accerr (e : DecodeError) : (s.completeError e).accerr = s.accerr := rfl
@[simp] theorem completeError_errcode (e : DecodeError) : (s.completeError e).errcode = e.code := rfl
@[simp] theorem completeError_pend (e : DecodeError) : (s.completeError e).pend = s.pend := rfl
@[simp] theorem completeError_draws (e : DecodeError) : (s.completeError e).draws = s.draws := rfl
@[simp] theorem completeError_turns (e : DecodeError) : (s.completeError e).turns = s.turns := rfl
@[simp] theorem completeError_resp (e : DecodeError) : (s.completeError e).resp = s.resp := rfl

/-! `State.acceptCommand` -/

@[simp] theorem acceptCommand_d (w : Word) : (s.acceptCommand w).d = s.d := rfl
@[simp] theorem acceptCommand_ie (w : Word) : (s.acceptCommand w).ie = s.ie := rfl
@[simp] theorem acceptCommand_busy (w : Word) : (s.acceptCommand w).busy = true := rfl
@[simp] theorem acceptCommand_done (w : Word) : (s.acceptCommand w).done = false := rfl
@[simp] theorem acceptCommand_err (w : Word) : (s.acceptCommand w).err = s.err := rfl
@[simp] theorem acceptCommand_accerr (w : Word) : (s.acceptCommand w).accerr = s.accerr := rfl
@[simp] theorem acceptCommand_errcode (w : Word) : (s.acceptCommand w).errcode = s.errcode := rfl
@[simp] theorem acceptCommand_pend (w : Word) : (s.acceptCommand w).pend = w := rfl
@[simp] theorem acceptCommand_draws (w : Word) : (s.acceptCommand w).draws = s.draws := rfl
@[simp] theorem acceptCommand_turns (w : Word) : (s.acceptCommand w).turns = s.turns := rfl
@[simp] theorem acceptCommand_resp (w : Word) : (s.acceptCommand w).resp = s.resp := rfl

/-! `State.applyReset` -/

@[simp] theorem applyReset_d : (s.applyReset).d = Vector.replicate 16 0 := rfl
@[simp] theorem applyReset_ie : (s.applyReset).ie = false := rfl
@[simp] theorem applyReset_busy : (s.applyReset).busy = false := rfl
@[simp] theorem applyReset_done : (s.applyReset).done = false := rfl
@[simp] theorem applyReset_err : (s.applyReset).err = false := rfl
@[simp] theorem applyReset_accerr : (s.applyReset).accerr = false := rfl
@[simp] theorem applyReset_errcode : (s.applyReset).errcode = 0 := rfl
@[simp] theorem applyReset_pend : (s.applyReset).pend = 0 := rfl
@[simp] theorem applyReset_draws : (s.applyReset).draws = s.draws := rfl
@[simp] theorem applyReset_turns : (s.applyReset).turns = s.turns := rfl
@[simp] theorem applyReset_resp : (s.applyReset).resp = s.resp := rfl

/-! `State.flagAccess` -/

@[simp] theorem flagAccess_d : (s.flagAccess).d = s.d := rfl
@[simp] theorem flagAccess_ie : (s.flagAccess).ie = s.ie := rfl
@[simp] theorem flagAccess_busy : (s.flagAccess).busy = s.busy := rfl
@[simp] theorem flagAccess_done : (s.flagAccess).done = s.done := rfl
@[simp] theorem flagAccess_err : (s.flagAccess).err = s.err := rfl
@[simp] theorem flagAccess_accerr : (s.flagAccess).accerr = true := rfl
@[simp] theorem flagAccess_errcode : (s.flagAccess).errcode = s.errcode := rfl
@[simp] theorem flagAccess_pend : (s.flagAccess).pend = s.pend := rfl
@[simp] theorem flagAccess_draws : (s.flagAccess).draws = s.draws := rfl
@[simp] theorem flagAccess_turns : (s.flagAccess).turns = s.turns := rfl
@[simp] theorem flagAccess_resp : (s.flagAccess).resp = s.resp := rfl

/-! `State.writeStatus` -/

@[simp] theorem writeStatus_d (v : Word) : (s.writeStatus v).d = s.d := rfl
@[simp] theorem writeStatus_ie (v : Word) : (s.writeStatus v).ie = s.ie := rfl
@[simp] theorem writeStatus_busy (v : Word) : (s.writeStatus v).busy = s.busy := rfl
@[simp] theorem writeStatus_done (v : Word) : (s.writeStatus v).done = (s.done && !v.getLsbD 1) := rfl
@[simp] theorem writeStatus_err (v : Word) : (s.writeStatus v).err = (s.err && !v.getLsbD 2) := rfl
@[simp] theorem writeStatus_accerr (v : Word) : (s.writeStatus v).accerr = (s.accerr && !v.getLsbD 3) := rfl
@[simp] theorem writeStatus_errcode (v : Word) : (s.writeStatus v).errcode = s.errcode := rfl
@[simp] theorem writeStatus_pend (v : Word) : (s.writeStatus v).pend = s.pend := rfl
@[simp] theorem writeStatus_draws (v : Word) : (s.writeStatus v).draws = s.draws := rfl
@[simp] theorem writeStatus_turns (v : Word) : (s.writeStatus v).turns = s.turns := rfl
@[simp] theorem writeStatus_resp (v : Word) : (s.writeStatus v).resp = s.resp := rfl

/-! `State.setPoint` -/

@[simp] theorem setPoint_ie (n : PReg) (a b c e : Bytes32) : (s.setPoint n a b c e).ie = s.ie := rfl
@[simp] theorem setPoint_busy (n : PReg) (a b c e : Bytes32) : (s.setPoint n a b c e).busy = s.busy := rfl
@[simp] theorem setPoint_done (n : PReg) (a b c e : Bytes32) : (s.setPoint n a b c e).done = s.done := rfl
@[simp] theorem setPoint_err (n : PReg) (a b c e : Bytes32) : (s.setPoint n a b c e).err = s.err := rfl
@[simp] theorem setPoint_accerr (n : PReg) (a b c e : Bytes32) : (s.setPoint n a b c e).accerr = s.accerr := rfl
@[simp] theorem setPoint_errcode (n : PReg) (a b c e : Bytes32) : (s.setPoint n a b c e).errcode = s.errcode := rfl
@[simp] theorem setPoint_pend (n : PReg) (a b c e : Bytes32) : (s.setPoint n a b c e).pend = s.pend := rfl
@[simp] theorem setPoint_draws (n : PReg) (a b c e : Bytes32) : (s.setPoint n a b c e).draws = s.draws := rfl
@[simp] theorem setPoint_turns (n : PReg) (a b c e : Bytes32) : (s.setPoint n a b c e).turns = s.turns := rfl
@[simp] theorem setPoint_resp (n : PReg) (a b c e : Bytes32) : (s.setPoint n a b c e).resp = s.resp := rfl

/-! `State.launch` -/

@[simp] theorem launch_d (w : Word) : (s.launch w).d = s.d := rfl
@[simp] theorem launch_ie (w : Word) : (s.launch w).ie = s.ie := rfl
@[simp] theorem launch_busy (w : Word) : (s.launch w).busy = true := rfl
@[simp] theorem launch_done (w : Word) : (s.launch w).done = false := rfl
@[simp] theorem launch_err (w : Word) : (s.launch w).err = s.err := rfl
@[simp] theorem launch_accerr (w : Word) : (s.launch w).accerr = s.accerr := rfl
@[simp] theorem launch_errcode (w : Word) : (s.launch w).errcode = s.errcode := rfl
@[simp] theorem launch_pend (w : Word) : (s.launch w).pend = w := rfl
@[simp] theorem launch_draws (w : Word) : (s.launch w).draws = s.draws := rfl
@[simp] theorem launch_turns (w : Word) : (s.launch w).turns = Turn.engine :: s.turns := rfl
@[simp] theorem launch_resp (w : Word) : (s.launch w).resp = s.resp := rfl

@[simp] theorem completeOk_reg (j : DReg) : (s.completeOk).reg j = s.reg j := rfl
@[simp] theorem completeError_reg (e : DecodeError) (j : DReg) : (s.completeError e).reg j = s.reg j := rfl
@[simp] theorem acceptCommand_reg (w : Word) (j : DReg) : (s.acceptCommand w).reg j = s.reg j := rfl
@[simp] theorem flagAccess_reg (j : DReg) : (s.flagAccess).reg j = s.reg j := rfl
@[simp] theorem writeStatus_reg (v : Word) (j : DReg) : (s.writeStatus v).reg j = s.reg j := rfl
@[simp] theorem launch_reg (w : Word) (j : DReg) : (s.launch w).reg j = s.reg j := rfl

/-- Reading the register just written (00_scope.md R12). -/
@[simp] theorem setReg_reg_self (i : DReg) (v : Bytes32) : (s.setReg i v).reg i = v := by
  simp [State.reg, State.setReg]

/-- Writing one register leaves every other one alone. -/
theorem setReg_reg_ne (i j : DReg) (v : Bytes32) (h : j ≠ i) : (s.setReg i v).reg j = s.reg j := by
  have hv : i.val ≠ j.val := fun e => h (Fin.ext e.symm)
  simp [State.reg, State.setReg, hv]

/-- Reading after writing, in one equation. -/
theorem setReg_reg (i j : DReg) (v : Bytes32) : (s.setReg i v).reg j = if j = i then v else s.reg j := by
  split
  · subst j; simp
  · exact setReg_reg_ne s i j v ‹_›

/-- Every register is 0 after a reset (10_state.md R38). -/
@[simp] theorem applyReset_reg (j : DReg) : s.applyReset.reg j = 0 := by
  simp [State.reg]

@[simp] theorem reset_reg (j : DReg) : State.reset.reg j = 0 := by
  simp [State.reg, State.reset]

/-- Two register files that read alike are equal. -/
theorem d_ext (s t : State) (h : ∀ j : DReg, s.reg j = t.reg j) : s.d = t.d :=
  Vector.ext fun i hi => h ⟨i, hi⟩

/-- A CTRL write with bit 0 clear sets IE alone (10_state.md R29). -/
theorem writeCtrl_of_false {v : Word} (h : v.getLsbD 0 = false) :
    s.writeCtrl v = { s with ie := v.getLsbD 1 } := by
  simp only [State.writeCtrl, h, Bool.false_eq_true, if_false]

/-- A CTRL write with bit 0 set is a reset, IE included (10_state.md R29; 70_reset_and_hazards.md R231). -/
theorem writeCtrl_of_true {v : Word} (h : v.getLsbD 0 = true) : s.writeCtrl v = s.applyReset := by
  simp only [State.writeCtrl, h, if_true]; rfl

/-! Point registers (10_state.md R23). -/

@[simp] theorem slot_val (n : PReg) (k : Fin 4) : (slot n k).val = 4 * n.val + k.val := rfl

/-- Different slots are different registers. -/
theorem slot_inj {n m : PReg} {k l : Fin 4} (h : slot n k = slot m l) : n = m ∧ k = l := by
  have hv := congrArg Fin.val h
  simp only [slot_val] at hv
  constructor <;> apply Fin.ext <;> omega

/-- Reading slot k of a point just written gives its k-th value. -/
theorem setPoint_slot (n : PReg) (a b c e : Bytes32) (k : Fin 4) :
    (s.setPoint n a b c e).reg (slot n k) = ![a, b, c, e] k := by
  have hne : ∀ {k l : Fin 4}, k ≠ l → slot n k ≠ slot n l := fun h e => h (slot_inj e).2
  unfold State.setPoint
  match k with
  | 0 => rw [setReg_reg_ne, setReg_reg_ne, setReg_reg_ne, setReg_reg_self] <;> first | rfl | exact hne (by decide)
  | 1 => rw [setReg_reg_ne, setReg_reg_ne, setReg_reg_self] <;> first | rfl | exact hne (by decide)
  | 2 => rw [setReg_reg_ne, setReg_reg_self] <;> first | rfl | exact hne (by decide)
  | 3 => rw [setReg_reg_self]; rfl

/-- Writing a point leaves every register outside its four slots alone. -/
theorem setPoint_reg_ne (n : PReg) (a b c e : Bytes32) (j : DReg) (h : ∀ k, j ≠ slot n k) :
    (s.setPoint n a b c e).reg j = s.reg j := by
  simp [State.setPoint, setReg_reg_ne, h]

/-- A field in range names a point register. -/
theorem pointReg?_of_lt {p : PNum} (h : p.val < 4) : pointReg? p = some ⟨p.val, h⟩ := by
  simp [pointReg?, h]

/-- A field out of range names none (60_exceptions.md R205). -/
theorem pointReg?_of_not_lt {p : PNum} (h : ¬ p.val < 4) : pointReg? p = none := by
  simp [pointReg?, h]

end Sys2Proof.Machine
end

