-- ==== Sys2Proof/Laws/Exec.lean ====
section
/-! SUPPORT. What the shared endings of the meanings do, said once: the state they answer, the registers it holds and
its frame. -/

namespace Sys2Proof.Machine

/-- A completed state is complete (60_exceptions.md R210). -/
theorem completeOk_completed (s : State) : CompletedOk s.completeOk := ⟨rfl, rfl, rfl⟩

/-- A command that writes one register: its result, its completion and its frame. -/
theorem finishReg_spec (i : DReg) (v : Bytes32) (s : State) :
    ∃ t, finishReg i v s = .next t ∧ t.reg i = v ∧ CompletedOk t ∧ FrameOutside [i] s t ∧ t.draws = s.draws := by
  refine ⟨_, rfl, by simp, completeOk_completed _, ⟨?_, rfl, rfl, rfl, rfl, rfl, rfl⟩, rfl⟩
  intro j hj
  rw [completeOk_reg, setReg_reg_ne _ _ _ _ (by simpa using hj)]

/-- A command that writes one field element. -/
theorem finishField_spec (i : DReg) (x : Fe) (s : State) :
    ∃ t, finishField i x s = .next t ∧ t.reg i = enc x ∧ CompletedOk t ∧ FrameOutside [i] s t ∧ t.draws = s.draws :=
  finishReg_spec i (enc x) s

/-- A command that writes one point register: its slots, its completion and its frame. -/
theorem finishPoint_spec (n : PReg) (a b c e : Bytes32) (s : State) :
    ∃ t, finishPoint n a b c e s = .next t ∧ (∀ k, t.reg (slot n k) = ![a, b, c, e] k) ∧ CompletedOk t ∧
      FrameOutside [slot n 0, slot n 1, slot n 2, slot n 3] s t ∧ t.draws = s.draws := by
  refine ⟨_, rfl, fun k => ?_, completeOk_completed _, ⟨?_, rfl, rfl, rfl, rfl, rfl, rfl⟩, rfl⟩
  · rw [completeOk_reg, setPoint_slot]
  · intro j hj
    simp only [List.mem_cons, List.not_mem_nil, or_false, not_or] at hj
    rw [completeOk_reg, setPoint_reg_ne]
    intro k
    match k with
    | 0 => exact hj.1
    | 1 => exact hj.2.1
    | 2 => exact hj.2.2.1
    | 3 => exact hj.2.2.2

/-- An operand that names no point register: the error completion, and nothing else (60_exceptions.md R204, R205). -/
theorem finishInvalid_eq (s : State) :
    finishInvalid s = .next { s with errcode := 3, err := true, done := true, busy := false } := rfl

/-- Every ending answers a next state, so no operand value stops a command (60_exceptions.md R203). -/
theorem finishReg_next (i : DReg) (v : Bytes32) (s : State) : finishReg i v s = .next (s.setReg i v).completeOk := rfl

theorem finishPoint_next (n : PReg) (a b c e : Bytes32) (s : State) :
    finishPoint n a b c e s = .next (s.setPoint n a b c e).completeOk := rfl

/-- Every command completes, whatever its operands and the registers' values, and leaves ACCERR alone
(60_exceptions.md R203, R204, R210). -/
theorem exec_completes (i : Instr) (s : State) :
    ∃ t, exec i s = .next t ∧ t.busy = false ∧ t.accerr = s.accerr := by
  cases i <;>
    simp only [exec, execFadd, execFsub, execFmul, execFinv, execFcanon, execPldi, execPldb, execPadd, execPmadd,
      execPdbl, execPtopre, execPtou, execPbasemul, execLadder, execHsalsa, execClamp, execKeygen, execDerivepub,
      execDeriveshared] <;>
    (repeat' split) <;> exact ⟨_, rfl, rfl, rfl⟩

end Sys2Proof.Machine
end

