-- ==== Sys2Proof/Laws/Salsa.lean ====
section
/-! SUPPORT. The HSalsa20 operations said once: the rotation, what a quarter-round leaves in each word, and the value
of the output string. -/

namespace Sys2Proof.Machine

/-- `rotl32` is the library's rotation (00_scope.md R15). -/
theorem rotl32_eq (a : Word) {n : Nat} (h : n < 32) : rotl32 a n = a.rotateLeft n := by
  simp [rotl32, BitVec.rotateLeft, BitVec.rotateLeftAux, Nat.mod_eq_of_lt h]

/-- Reading a word after one was replaced. -/
theorem salsa_get_set (x : SalsaState) (i k : Fin 16) (v : Word) :
    (x.set i v)[k] = if k = i then v else x[k] := by
  by_cases h : k = i
  · subst h; simp
  · have hv : i.val ≠ k.val := fun e => h (Fin.ext e.symm)
    simp [h, hv]

/-- What a quarter-round leaves in every word of the state (43_hsalsa20.md R162). -/
theorem quarterRound_get {a b c d : Fin 16} (hab : a ≠ b) (hac : a ≠ c) (had : a ≠ d) (hbc : b ≠ c) (hbd : b ≠ d)
    (hcd : c ≠ d) (x : SalsaState) (k : Fin 16) {z0 z1 z2 z3 : Word}
    (h1 : z1 = x[b] ^^^ rotl32 (x[a] + x[d]) 7) (h2 : z2 = x[c] ^^^ rotl32 (z1 + x[a]) 9)
    (h3 : z3 = x[d] ^^^ rotl32 (z2 + z1) 13) (h0 : z0 = x[a] ^^^ rotl32 (z3 + z2) 18) :
    (quarterRound a b c d x)[k] =
      if k = a then z0 else if k = d then z3 else if k = c then z2 else if k = b then z1 else x[k] := by
  subst h1 h2 h3 h0
  simp only [quarterRound, salsa_get_set, hab, hac, had, hbc, hcd, hbc.symm, hbd.symm, hcd.symm, if_true, if_false]

/-- The value of eight words joined, the first one lowest (43_hsalsa20.md R164). -/
theorem joinWords_toNat (w0 w1 w2 w3 w4 w5 w6 w7 : Word) :
    (joinWords w0 w1 w2 w3 w4 w5 w6 w7).toNat = w0.toNat + w1.toNat * 2 ^ 32 + w2.toNat * 2 ^ 64 +
      w3.toNat * 2 ^ 96 + w4.toNat * 2 ^ 128 + w5.toNat * 2 ^ 160 + w6.toNat * 2 ^ 192 + w7.toNat * 2 ^ 224 := by
  have join : ∀ {m n : Nat} (x : BitVec m) (y : BitVec n), (x ++ y).toNat = x.toNat * 2 ^ n + y.toNat := by
    intro m n x y
    rw [BitVec.toNat_append, Nat.shiftLeft_eq, Nat.mul_comm, ← Nat.two_pow_add_eq_or_of_lt y.isLt]
  simp only [joinWords, join]
  omega

end Sys2Proof.Machine
end

