-- ==== Sys2Proof/Laws/Step.lean ====
section
/-! SUPPORT. The step of the machine by the turn that comes next, and the map of the window. -/

namespace Sys2Proof.Machine

/-- With no turn left it is the engine's turn (log 3). -/
theorem step_nil {s : State} (h : s.turns = []) : step s = engineTurn s := by
  simp [step, nextEvent, h]

/-- Otherwise the first turn is taken, in the state with that turn consumed (20_memory.md R65). -/
theorem step_cons {s : State} {t : Turn} {ts : List Turn} (h : s.turns = t :: ts) :
    step s = takeTurn t { s with turns := ts } := by
  simp [step, nextEvent, h]

/-- The engine's step on a word that decodes (60_exceptions.md R210). -/
theorem engineStep_ok {s : State} {i : Instr} (h : decode s.pend = .ok i) : engineStep s = exec i s := by
  simp [engineStep, h]

/-- The engine's step on a word that does not (60_exceptions.md R204). -/
theorem engineStep_error {s : State} {e : DecodeError} (h : decode s.pend = .error e) :
    engineStep s = .next (s.completeError e) := by
  simp [engineStep, h]

theorem engineTurn_busy {s : State} (h : s.busy = true) : engineTurn s = engineStep s := by
  simp [engineTurn, h]

theorem engineTurn_idle {s : State} (h : s.busy = false) : engineTurn s = .next s := by
  simp [engineTurn, h]

/-- A word access at a multiple of 4 reaches what the map names (20_memory.md R51, R54, R55). -/
theorem wordAccess_target? (off : BitVec 10) (h : off.toNat % 4 = 0) :
    (wordAccess off).target? = targetAt? off.toNat := by
  simp [Access.target?, Access.legal, wordAccess, h]

/-- An access that is not a whole aligned word reaches nothing (20_memory.md R54, R55). -/
theorem target?_of_not_legal {a : Access} (h : a.legal = false) : a.target? = none := by
  simp [Access.target?, h]

/-- The word at 0x100 + 32·i + 4·w is word w of D[i] (20_memory.md R53). -/
theorem targetAt?_data (i : DReg) (w : Fin 8) : targetAt? (0x100 + 32 * i.val + 4 * w.val) = some (.data i w) := by
  have hi := i.isLt
  have hw := w.isLt
  unfold targetAt?
  rw [if_neg (by omega), if_neg (by omega), if_neg (by omega), if_neg (by omega), if_neg (by omega),
    if_pos (by omega)]
  congr 2 <;> apply Fin.ext <;> simp only <;> omega

/-- The host's turn leaves the schedule as it is and records the answer. -/
theorem hostTurn_resp (h : HostAction) (s : State) : (hostTurn h s).resp = some (hostAccess h s).1 := rfl

end Sys2Proof.Machine
end

