-- ==== Sys2Proof/Laws/HostMacros.lean ====
section
/-! SUPPORT. What the host learns from RDD and CHECK. -/

namespace Sys2Proof.Machine

/-- Word w as an integer (00_scope.md R15). -/
theorem wordAt_toNat (b : Bytes32) (w : Fin 8) : (wordAt b w).toNat = b.toNat / 2 ^ (32 * w.val) % 2 ^ 32 := by
  simp [wordAt, Nat.shiftRight_eq_div_pow]

/-- The eight words of a string, joined, are the string (20_memory.md R53). -/
theorem joinWords_wordAt (b : Bytes32) : joinWords (wordAt b 0) (wordAt b 1) (wordAt b 2) (wordAt b 3) (wordAt b 4)
    (wordAt b 5) (wordAt b 6) (wordAt b 7) = b := by
  apply BitVec.eq_of_toNat_eq
  have hb := b.isLt
  simp only [joinWords_toNat, wordAt_toNat, Fin.isValue, Fin.val_zero, Fin.val_one, Fin.val_two]
  norm_num
  omega

/-- A read of an idle data word is answered with the word and changes nothing but the answer (20_memory.md R61). -/
theorem takeTurn_readWord {s : State} (h : s.busy = false) (n : DReg) (w : Fin 8) :
    takeTurn (readTurn (dataOffset n w)) s = .next { s with resp := some (.word (wordAt (s.reg n) w)) } := by
  have hoff : (dataOffset n w).toNat = 0x100 + 32 * n.val + 4 * w.val := by
    rw [dataOffset, BitVec.toNat_ofNat, Nat.mod_eq_of_lt (by omega)]
  have ht : (wordAccess (dataOffset n w)).target? = some (.data n w) := by
    rw [wordAccess_target? _ (by omega), hoff, targetAt?_data]
  simp [readTurn, takeTurn, hostTurn, hostAccess, hostRead, ht, h]

/-- Reads of idle data words are answered with the words. -/
theorem answersTo_readWords (n : DReg) (ws : List (Fin 8)) {s : State} (h : s.busy = false) :
    answersTo (ws.map fun w => readTurn (dataOffset n w)) s = ws.map fun w => .word (wordAt (s.reg n) w) := by
  induction ws generalizing s with
  | nil => rfl
  | cons w ws ih =>
    rw [List.map_cons, answersTo, takeTurn_readWord h]
    exact congrArg (_ :: ·) (ih (s := { s with resp := some (.word (wordAt (s.reg n) w)) }) h)

/-- RDD of an idle engine reads the register (30_encoding.md R90). -/
theorem rddValue_idle {s : State} (h : s.busy = false) (n : DReg) : rddValue n s = some (s.reg n) := by
  rw [rddValue, macroRdd, answersTo_readWords n _ h]
  exact congrArg some (joinWords_wordAt (s.reg n))

/-- CHECK tells whether ERRCODE is 0 (30_encoding.md R90; 60_exceptions.md R201). -/
theorem checkSucceeds_iff (s : State) : checkSucceeds s = (s.errcode == 0) := by
  have ht : (wordAccess 0x00C#10).target? = some .status := by decide
  have hs : checkSucceeds s = checkOk s.statusWord := by
    simp [checkSucceeds, macroCheck, answersTo, turnAnswer, readTurn, takeTurn, hostTurn, hostAccess, hostRead, ht]
  have bits : ∀ (b d e a : Bool) (c : BitVec 4), checkOk (0#20 ++ (c ++ (0#4 ++ (BitVec.ofBool a ++ (BitVec.ofBool e ++
      (BitVec.ofBool d ++ BitVec.ofBool b)))))) = (c == 0) := by decide
  rw [hs, State.statusWord, bits]

end Sys2Proof.Machine
end

