-- ==== Sys2Proof/Laws/PerInstr.lean ====
section
/-! SUPPORT. For every command: its word passes the first two checks of 30_encoding.md R85, the match condition of its
row in the opcode table. One lemma per constructor of Instr. -/

namespace Sys2Proof.Laws.RowMatch

/-- The command's word carries its opcode, and nothing in RSV or in a field its format does not use
(30_encoding.md R85, R87). -/
def Statement (i : Instr) : Prop :=
  opField (encode i) = i.op.code ∧ encode i &&& i.op.format.mask &&& ~~~0x000000FF#32 = 0

/-- A packed word of an operation matches its row when the fields its format drops are 0. -/
theorem packWord_matches (op : Op) (rd ra rb : Fin 16)
    (h : rb.val * 2 ^ 16 + ra.val * 2 ^ 12 + rd.val * 2 ^ 8 < 2 ^ op.format.top) :
    opField (packWord op rd ra rb) = op.code ∧
      packWord op rd ra rb &&& op.format.mask &&& ~~~0x000000FF#32 = 0 := by
  have hc := op.code.isLt
  have ht : 256 ∣ 2 ^ op.format.top := by cases op <;> decide
  obtain ⟨m, hm⟩ := ht
  constructor
  · apply BitVec.eq_of_toNat_eq
    clear h hm
    rw [opField_toNat, packWord_toNat]
    omega
  · rw [reserved_eq_zero, packWord_toNat, Nat.div_eq_zero_iff]
    right
    rw [hm] at h ⊢
    have e : rb.val * 2 ^ 16 + ra.val * 2 ^ 12 + rd.val * 2 ^ 8 = 256 * (rb.val * 2 ^ 8 + ra.val * 2 ^ 4 + rd.val) := by
      ring
    rw [e] at h ⊢
    have h1 := Nat.mul_le_mul_left 256 (Nat.succ_le_of_lt (Nat.lt_of_mul_lt_mul_left h))
    exact Nat.lt_of_lt_of_le (by rw [Nat.mul_succ]; exact Nat.add_lt_add_left hc _) h1

theorem fadd (rd ra rb : Fin 16) : Statement (.fadd rd ra rb) :=
  packWord_matches .fadd rd ra rb (by simp [Op.format, Format.top]; omega)

theorem fsub (rd ra rb : Fin 16) : Statement (.fsub rd ra rb) :=
  packWord_matches .fsub rd ra rb (by simp [Op.format, Format.top]; omega)

theorem fmul (rd ra rb : Fin 16) : Statement (.fmul rd ra rb) :=
  packWord_matches .fmul rd ra rb (by simp [Op.format, Format.top]; omega)

theorem finv (rd ra : Fin 16) : Statement (.finv rd ra) :=
  packWord_matches .finv rd ra 0 (by simp [Op.format, Format.top]; omega)

theorem fcanon (rd ra : Fin 16) : Statement (.fcanon rd ra) :=
  packWord_matches .fcanon rd ra 0 (by simp [Op.format, Format.top]; omega)

theorem pldi (rd : Fin 16) : Statement (.pldi rd) :=
  packWord_matches .pldi rd 0 0 (by simp [Op.format, Format.top]; omega)

theorem pldb (rd : Fin 16) : Statement (.pldb rd) :=
  packWord_matches .pldb rd 0 0 (by simp [Op.format, Format.top]; omega)

theorem padd (rd ra rb : Fin 16) : Statement (.padd rd ra rb) :=
  packWord_matches .padd rd ra rb (by simp [Op.format, Format.top]; omega)

theorem pmadd (rd ra rb : Fin 16) : Statement (.pmadd rd ra rb) :=
  packWord_matches .pmadd rd ra rb (by simp [Op.format, Format.top]; omega)

theorem pdbl (rd ra : Fin 16) : Statement (.pdbl rd ra) :=
  packWord_matches .pdbl rd ra 0 (by simp [Op.format, Format.top]; omega)

theorem ptopre (rd ra : Fin 16) : Statement (.ptopre rd ra) :=
  packWord_matches .ptopre rd ra 0 (by simp [Op.format, Format.top]; omega)

theorem ptou (rd ra : Fin 16) : Statement (.ptou rd ra) :=
  packWord_matches .ptou rd ra 0 (by simp [Op.format, Format.top]; omega)

theorem pbasemul (rd ra : Fin 16) : Statement (.pbasemul rd ra) :=
  packWord_matches .pbasemul rd ra 0 (by simp [Op.format, Format.top]; omega)

theorem ladder (rd ra rb : Fin 16) : Statement (.ladder rd ra rb) :=
  packWord_matches .ladder rd ra rb (by simp [Op.format, Format.top]; omega)

theorem hsalsa (rd ra : Fin 16) : Statement (.hsalsa rd ra) :=
  packWord_matches .hsalsa rd ra 0 (by simp [Op.format, Format.top]; omega)

theorem clamp (rd ra : Fin 16) : Statement (.clamp rd ra) :=
  packWord_matches .clamp rd ra 0 (by simp [Op.format, Format.top]; omega)

theorem keygen (rd : Fin 16) : Statement (.keygen rd) :=
  packWord_matches .keygen rd 0 0 (by simp [Op.format, Format.top]; omega)

theorem derivepub (rd ra : Fin 16) : Statement (.derivepub rd ra) :=
  packWord_matches .derivepub rd ra 0 (by simp [Op.format, Format.top]; omega)

theorem deriveshared (rd ra rb : Fin 16) : Statement (.deriveshared rd ra rb) :=
  packWord_matches .deriveshared rd ra rb (by simp [Op.format, Format.top]; omega)

end Sys2Proof.Laws.RowMatch
end

