-- ==== Sys2Proof/Laws/Prime.lean ====
section
/-! SUPPORT. p = 2^255 − 19 is prime, by Lucas certificates for it and for the large factors of p − 1, so that GF(p)
is a field (00_scope.md R2; 40_field.md R104, R106). -/

namespace Sys2Proof.Machine

/-- Square-and-multiply modulo m by the low n bits of e, from `acc`. -/
def powModFrom (m a e : Nat) : Nat → Nat → Nat
  | 0, acc => acc
  | i + 1, acc => powModFrom m a e i (if e.testBit i then acc * acc * a % m else acc * acc % m)

theorem powModFrom_modEq (m a e n acc : Nat) :
    powModFrom m a e n acc ≡ acc ^ 2 ^ n * a ^ (e % 2 ^ n) [MOD m] := by
  induction n generalizing acc with
  | zero => simp [powModFrom, Nat.mod_one, Nat.ModEq.refl]
  | succ n ih =>
    have hmod : e % 2 ^ (n + 1) = e % 2 ^ n + 2 ^ n * (e.testBit n).toNat := by
      rw [Nat.pow_succ, Nat.mod_mul, Nat.testBit, Nat.shiftRight_eq_div_pow, Nat.and_comm, Nat.and_one_is_mod]
      rcases Nat.mod_two_eq_zero_or_one (e / 2 ^ n) with h | h <;> simp [h]
    have hsq : acc ^ 2 ^ (n + 1) = (acc * acc) ^ 2 ^ n := by rw [Nat.pow_succ', Nat.pow_mul, Nat.pow_two]
    refine (ih _).trans ?_
    rw [hmod, hsq]
    cases e.testBit n
    · simpa using Nat.ModEq.mul_right _ (Nat.ModEq.pow _ (Nat.mod_modEq (acc * acc) m))
    · have e' : (acc * acc * a) ^ 2 ^ n * a ^ (e % 2 ^ n) = (acc * acc) ^ 2 ^ n * a ^ (e % 2 ^ n + 2 ^ n) := by
        rw [Nat.pow_add, Nat.mul_pow (acc * acc), Nat.mul_assoc, Nat.mul_comm (a ^ 2 ^ n)]
      simpa [← e'] using Nat.ModEq.mul_right _ (Nat.ModEq.pow _ (Nat.mod_modEq (acc * acc * a) m))

/-- The checks of Lucas's certificate that a computation settles: the factors multiply to p − 1 and `a` has order
p − 1 modulo p. -/
def lucasCheck (p a : Nat) (fs : List Nat) : Bool :=
  decide (1 < p) && decide (p < 2 ^ 256) && fs.prod == p - 1 && powModFrom p a (p - 1) 256 1 % p == 1 &&
    fs.all fun q => powModFrom p a ((p - 1) / q) 256 1 % p != 1

/-- Lucas's test: p is prime if `a` has order p − 1 modulo p, given the prime factors of p − 1. -/
theorem prime_of_lucasCheck {p : Nat} (a : Nat) (fs : List Nat) (hfs : ∀ q ∈ fs, q.Prime)
    (hc : lucasCheck p a fs = true) : p.Prime := by
  simp only [lucasCheck, Bool.and_eq_true, decide_eq_true_eq, beq_iff_eq, List.all_eq_true, bne_iff_ne] at hc
  obtain ⟨⟨⟨⟨hp, hlt⟩, hprod⟩, h1⟩, h2⟩ := hc
  have cast_eq : ∀ n, n < 2 ^ 256 → ((a : ZMod p) ^ n = 1 ↔ powModFrom p a n 256 1 % p = 1) := by
    intro n hn
    have hm := powModFrom_modEq p a n 256 1
    rw [Nat.one_pow, Nat.one_mul, Nat.mod_eq_of_lt hn] at hm
    rw [show powModFrom p a n 256 1 % p = a ^ n % p from hm, ← Nat.cast_pow, ← Nat.cast_one,
      ZMod.natCast_eq_natCast_iff', Nat.mod_eq_of_lt hp]
  refine lucas_primality p (a : ZMod p) ((cast_eq _ (by omega)).mpr h1) fun q hq hd => ?_
  rw [← hprod] at hd
  obtain ⟨r, hr, hqr⟩ := (Prime.dvd_prod_iff hq.prime).mp hd
  have e : q = r := (Nat.prime_dvd_prime_iff_eq hq (hfs r hr)).mp hqr
  rw [Ne, cast_eq _ (Nat.lt_of_le_of_lt (Nat.div_le_self _ _) (by omega)), e]
  exact h2 r hr

theorem prime_2773320623 : Nat.Prime 2773320623 :=
  prime_of_lucasCheck 5 [2, 2437, 569003] (by norm_num) (by decide +kernel)

theorem prime_72106336199 : Nat.Prime 72106336199 :=
  prime_of_lucasCheck 7 [2, 13, 2773320623] (by simp [prime_2773320623]; norm_num) (by decide +kernel)

theorem prime_1919519569386763 : Nat.Prime 1919519569386763 :=
  prime_of_lucasCheck 2 [2, 3, 7, 19, 47, 47, 127, 8574133] (by norm_num) (by decide +kernel)

theorem prime_31757755568855353 : Nat.Prime 31757755568855353 :=
  prime_of_lucasCheck 10 [2, 2, 2, 3, 31, 107, 223, 4153, 430751] (by norm_num) (by decide +kernel)

theorem prime_75445702479781427272750846543864801 : Nat.Prime 75445702479781427272750846543864801 :=
  prime_of_lucasCheck 7 [2, 2, 2, 2, 2, 3, 3, 5, 5, 75707, 72106336199, 1919519569386763]
    (by simp [prime_72106336199, prime_1919519569386763]; norm_num) (by decide +kernel)

theorem prime_cofactor :
    Nat.Prime 74058212732561358302231226437062788676166966415465897661863160754340907 :=
  prime_of_lucasCheck 2
    [2, 3, 353, 57467, 132049, 1923133, 31757755568855353, 75445702479781427272750846543864801]
    (by simp [prime_31757755568855353, prime_75445702479781427272750846543864801]; norm_num) (by decide +kernel)

/-- p is prime (00_scope.md R2). -/
theorem prime_prime : Nat.Prime prime :=
  prime_of_lucasCheck 2
    [2, 2, 3, 65147, 74058212732561358302231226437062788676166966415465897661863160754340907]
    (by simp [prime_cofactor]; norm_num) (by decide +kernel)

end Sys2Proof.Machine
end

