-- ==== Sys2Proof/Laws/Safety.lean ====
section
/-! SUPPORT. What the wait-for-completion rule buys: in a safe run the engine flags no host access
(70_reset_and_hazards.md R240). -/

namespace Sys2Proof.Machine

/-- What the wait rule rests on: a pending command is not done, and the host knows that it must wait. -/
structure Waiting (owes : Bool) (s : State) : Prop where
  notDone : s.busy = true → s.done = false
  owed : s.busy = true → owes = true

/-- An idle engine asks for no wait. -/
theorem waiting_of_idle {owes : Bool} {s : State} (h : s.busy = false) : Waiting owes s :=
  ⟨fun hb => by simp [h] at hb, fun hb => by simp [h] at hb⟩

/-- The engine's turn completes the pending command, or does nothing, and never sets ACCERR. -/
theorem engineTurn_completes (s : State) : ∃ t, engineTurn s = .next t ∧ t.busy = false ∧ t.accerr = s.accerr := by
  cases hb : s.busy
  · exact ⟨s, engineTurn_idle hb, hb, rfl⟩
  · rw [engineTurn_busy hb, engineStep]
    split
    · exact exec_completes _ s
    · exact ⟨_, rfl, rfl, rfl⟩

/-- A host access that needs no idle engine, or meets one, is not flagged (20_memory.md R61–R63). -/
theorem hostTurn_accerr (h : HostAction) (s : State) (hok : s.busy = true → h.needsIdle = false) :
    (hostTurn h s).accerr = true → s.accerr = true := by
  cases h with
  | read a =>
    simp only [HostAction.needsIdle] at hok
    simp only [hostTurn, hostAccess, hostRead]
    split <;> simp_all
  | write a v =>
    simp only [HostAction.needsIdle] at hok
    simp only [hostTurn, hostAccess, hostWrite]
    split <;> simp_all
    · cases hv : v.getLsbD 0
      · rw [writeCtrl_of_false s hv]; exact id
      · rw [writeCtrl_of_true s hv]; simp
    · cases hb : s.busy <;> simp_all [State.writeCmd]

/-- After a host access the host's account of the wait is right: an accepted CMD write starts it, and only a STATUS
read that returns BUSY = 0 or a soft reset ends it. -/
theorem hostTurn_waiting {owes : Bool} {s : State} (h : HostAction) {ts : List Turn} (hts : s.turns = .host h :: ts)
    (hw : Waiting owes s) : Waiting (owesAfterTurn owes s) (hostTurn h { s with turns := ts }) := by
  have hd := hw.notDone
  have ho := hw.owed
  cases h with
  | read a =>
    rcases ht : a.target? with _ | tg
    · constructor <;> intro hb <;> simp_all [owesAfterTurn, hostTurn, hostAccess, hostRead]
    · cases tg <;> constructor <;> cases hb : s.busy <;>
        simp_all [owesAfterTurn, hostTurn, hostAccess, hostRead]
  | write a v =>
    rcases ht : a.target? with _ | tg
    · constructor <;> intro hb <;> simp_all [owesAfterTurn, hostTurn, hostAccess, hostWrite]
    · cases tg with
      | ctrl =>
        cases hv : v.getLsbD 0
        · constructor <;> intro hb <;>
            simp_all only [owesAfterTurn, hostTurn, hostAccess, hostWrite, writeCtrl_of_false _ hv] <;> simp_all
        · apply waiting_of_idle
          simp only [hostTurn, hostAccess, hostWrite, ht, writeCtrl_of_true _ hv, applyReset_busy]
      | _ => constructor <;> cases hb : s.busy <;>
          simp_all [owesAfterTurn, hostTurn, hostAccess, hostWrite, State.writeCmd]

/-- One step of a safe run: it answers a next state, the host's account of the wait stays right, and ACCERR is not
set. -/
theorem step_safe {owes : Bool} {s : State} (hw : Waiting owes s) (hr : s.respectsWait owes = true) :
    ∃ t, step s = .next t ∧ Waiting (owesAfterTurn owes s) t ∧ (t.accerr = true → s.accerr = true) := by
  have engine : ∀ r : State, r.accerr = s.accerr → ∀ o, ∃ t, engineTurn r = .next t ∧ Waiting o t ∧
      (t.accerr = true → s.accerr = true) := by
    intro r hrs o
    obtain ⟨t, ht, hb, ha⟩ := engineTurn_completes r
    exact ⟨t, ht, waiting_of_idle hb, fun h => hrs ▸ ha ▸ h⟩
  match hts : s.turns with
  | [] => rw [step_nil hts]; exact engine s rfl _
  | .engine :: ts => rw [step_cons hts]; exact engine { s with turns := ts } rfl _
  | .rstN :: ts =>
    rw [step_cons hts]
    exact ⟨_, rfl, waiting_of_idle rfl, fun h => by simp at h⟩
  | .takeIrq :: ts =>
    rw [step_cons hts]
    refine ⟨_, rfl, ⟨hw.notDone, fun hb => ?_⟩, id⟩
    simp [owesAfterTurn, hts, State.irq, hw.notDone hb, hw.owed hb]
  | .host h :: ts =>
    rw [step_cons hts]
    have hidle : s.busy = true → h.needsIdle = false := by
      intro hb
      simpa [State.respectsWait, hts, hw.owed hb] using hr
    refine ⟨_, rfl, ?_, hostTurn_accerr h { s with turns := ts } hidle⟩
    exact hostTurn_waiting h hts hw

/-- A safe run answers a state in which ACCERR is set only if it was set at the start: a host that keeps the
wait-for-completion rule is never flagged (70_reset_and_hazards.md R240). -/
theorem safeRunFrom_accerr (n : Nat) {owes : Bool} {s : State} (hw : Waiting owes s)
    (hs : safeRunFrom n owes s = true) :
    ∃ t, core.run n s = .next t ∧ (t.accerr = true → s.accerr = true) := by
  induction n generalizing owes s with
  | zero => exact ⟨s, rfl, id⟩
  | succ n ih =>
    simp only [safeRunFrom, Bool.and_eq_true] at hs
    obtain ⟨u, hu, hwu, hau⟩ := step_safe hw hs.1
    simp only [hu] at hs
    obtain ⟨t, ht, hat⟩ := ih hwu hs.2
    have run : core.run (n + 1) s = core.run n u := by
      simp only [Host.Core.run, core, hu]
    exact ⟨t, run.trans ht, fun h => hau (hat h)⟩

end Sys2Proof.Machine
end

