-- ==== Sys2Proof/Tests/Slice0.lean ====
section
/-! SUPPORT. Tests. Expected results are the spec's own: the encodings of 30_encoding.md R81, R82, R84 and the vectors
of 95_test_vectors.md. At the end, one witness per statement that has hypotheses. -/

namespace Sys2Proof.Tests

open Sys2Proof.Machine Sys2Proof.Reference

/-- The bytes of a 64-digit hex string of the spec, byte 0 first, as the string (00_scope.md R11). -/
def turnedBytes : Nat → Nat → Nat → Nat
  | 0, _, acc => acc
  | n + 1, x, acc => turnedBytes n (x / 256) (acc * 256 + x % 256)

def le (x : Nat) : Bytes32 := BitVec.ofNat 256 (turnedBytes 32 x 0)

/-- The reset state with some registers loaded. -/
def holding : List (DReg × Bytes32) → State
  | [] => State.reset
  | (i, v) :: l => (holding l).setReg i v

/-- D[i] after the one step that runs the command word w. -/
def after (w : Nat) (l : List (DReg × Bytes32)) (i : DReg) : Option Bytes32 :=
  match step ((holding l).withFetchWord 32 w) with
  | .next t => some (t.reg i)
  | .fault _ => none
  | .refused _ => none

/-- The four slots of P[n] after that step. -/
def afterPoint (w : Nat) (l : List (DReg × Bytes32)) (n : PReg) : List (Option Bytes32) :=
  (quad n).map (after w l)

/-! Well-formedness: for each check an ill-formed term, which it refuses (60_exceptions.md R205). -/

theorem test_wf_refuses : (Instr.pldi 4).wf = false ∧ (Instr.pldb 15).wf = false ∧ (Instr.padd 4 0 0).wf = false ∧
    (Instr.padd 0 4 0).wf = false ∧ (Instr.padd 0 0 4).wf = false ∧ (Instr.pmadd 5 0 0).wf = false ∧
    (Instr.pmadd 0 6 0).wf = false ∧ (Instr.pmadd 0 0 7).wf = false ∧ (Instr.pdbl 4 0).wf = false ∧
    (Instr.pdbl 0 4).wf = false ∧ (Instr.ptopre 8 0).wf = false ∧ (Instr.ptopre 0 8).wf = false ∧
    (Instr.ptou 0 4).wf = false ∧ (Instr.pbasemul 4 0).wf = false := by decide

theorem test_wf_accepts : (Instr.padd 3 3 3).wf = true ∧ (Instr.ptou 15 3).wf = true ∧
    (Instr.pbasemul 3 15).wf = true ∧ (Instr.fadd 15 15 15).wf = true := by decide

/-! Decoding: each word is written field by field, RSV, RB, RA, RD, OP, from 30_encoding.md R81, R82, R84. -/

theorem test_decode_field : decode (0#12 ++ 1#4 ++ 0#4 ++ 2#4 ++ 0x01#8) = .ok (.fadd 2 0 1) ∧
    decode (0#12 ++ 3#4 ++ 14#4 ++ 15#4 ++ 0x02#8) = .ok (.fsub 15 14 3) ∧
    decode (0#12 ++ 4#4 ++ 3#4 ++ 5#4 ++ 0x03#8) = .ok (.fmul 5 3 4) ∧
    decode (0#16 ++ 2#4 ++ 4#4 ++ 0x04#8) = .ok (.finv 4 2) ∧
    decode (0#16 ++ 9#4 ++ 8#4 ++ 0x05#8) = .ok (.fcanon 8 9) := by decide

theorem test_decode_edwards : decode (0#20 ++ 3#4 ++ 0x10#8) = .ok (.pldi 3) ∧
    decode (0#20 ++ 1#4 ++ 0x11#8) = .ok (.pldb 1) ∧
    decode (0#12 ++ 1#4 ++ 2#4 ++ 3#4 ++ 0x12#8) = .ok (.padd 3 2 1) ∧
    decode (0#12 ++ 2#4 ++ 0#4 ++ 2#4 ++ 0x13#8) = .ok (.pmadd 2 0 2) ∧
    decode (0#16 ++ 3#4 ++ 0#4 ++ 0x14#8) = .ok (.pdbl 0 3) ∧
    decode (0#16 ++ 2#4 ++ 1#4 ++ 0x15#8) = .ok (.ptopre 1 2) ∧
    decode (0#16 ++ 3#4 ++ 12#4 ++ 0x16#8) = .ok (.ptou 12 3) ∧
    decode (0#16 ++ 14#4 ++ 2#4 ++ 0x17#8) = .ok (.pbasemul 2 14) := by decide

theorem test_decode_kernels : decode (0#12 ++ 3#4 ++ 6#4 ++ 7#4 ++ 0x20#8) = .ok (.ladder 7 6 3) ∧
    decode (0#16 ++ 7#4 ++ 8#4 ++ 0x30#8) = .ok (.hsalsa 8 7) := by decide

theorem test_decode_facade : decode (0#16 ++ 15#4 ++ 14#4 ++ 0x40#8) = .ok (.clamp 14 15) ∧
    decode (0#20 ++ 5#4 ++ 0x41#8) = .ok (.keygen 5) ∧
    decode (0#16 ++ 1#4 ++ 3#4 ++ 0x42#8) = .ok (.derivepub 3 1) ∧
    decode (0#12 ++ 2#4 ++ 1#4 ++ 5#4 ++ 0x43#8) = .ok (.deriveshared 5 1 2) := by decide

/-- The error rows of 95_test_vectors.md L2.0. -/
theorem test_decode_errors : ([0x00000000, 0x000000FF, 0xFFFFFFFF] : List Word).map completionCode = [1, 1, 1] ∧
    ([0x00100412, 0x00100001, 0x00010204, 0x00001041, 0x00040017] : List Word).map completionCode =
      [2, 2, 2, 2, 2] ∧
    ([0x00000412, 0x00040112, 0x00004016, 0x00000417] : List Word).map completionCode = [3, 3, 3, 3] := by decide

theorem test_decodeTableWord : decodeTableWord 32 0x00010201 = some (.fadd 2 0 1) ∧
    decodeTableWord 8 0x41 = some (.keygen 0) ∧ decodeTableWord 32 0x00000412 = none := by decide

/-- Constants of 41_edwards.md R120, R121 as 95_test_vectors.md L2.2 prints them. -/
theorem test_constants :
    enc curveD = le 0xa3785913ca4deb75abd841414d0a700098e879777940c78c73fe6f2bee6c0352 ∧
    enc curve2D = le 0x59f1b226949bd6eb56b183829a14e00030d1f3eef2808e19e7fcdf56dcd90624 ∧
    feOfNat 121666 * curveD = feOfNat (P - 121665) := by decide +kernel

/-! One step per command, on the vectors of 95_test_vectors.md L2.1 to L2.5. -/

theorem test_field :
    after 0x00010201
     [(0, le 0x0100000000000000000000000000000000000000000000000000000000000080),
     (1, le 0x0100000000000000000000000000000000000000000000000000000000000000)] 2 =
     some (le 0x0200000000000000000000000000000000000000000000000000000000000000) ∧
    after 0x00010201
     [(0, le 0xecffffffffffffffffffffffffffffffffffffffffffffffffffffffffffff7f),
     (1, le 0x0100000000000000000000000000000000000000000000000000000000000000)] 2 =
     some (le 0x0000000000000000000000000000000000000000000000000000000000000000) ∧
    after 0x00010202
     [(0, le 0x0500000000000000000000000000000000000000000000000000000000000000),
     (1, le 0x0700000000000000000000000000000000000000000000000000000000000000)] 2 =
     some (le 0xebffffffffffffffffffffffffffffffffffffffffffffffffffffffffffff7f) ∧
    after 0x00000202
     [(0, le 0x77076d0a7318a57d3c16c17251b26645df4c2f87ebc0992ab177fba51db92c2a)] 2 =
     some (le 0x0000000000000000000000000000000000000000000000000000000000000000) ∧
    after 0x00010203
     [(0, le 0x0000000000000000000000000000000001000000000000000000000000000000),
     (1, le 0x0000000000000000000000000000000001000000000000000000000000000000)] 2 =
     some (le 0x2600000000000000000000000000000000000000000000000000000000000000) ∧
    after 0x00000003
     [(0, le 0xb0a00e4a271beec478e42fad0618432fa7d7fb3d99004d2b0bdfc14f8024832b)] 0 =
     some (le 0xecffffffffffffffffffffffffffffffffffffffffffffffffffffffffffff7f) ∧
    after 0x00000104
     [(0, le 0x0000000000000000000000000000000000000000000000000000000000000000)] 1 =
     some (le 0x0000000000000000000000000000000000000000000000000000000000000000) ∧
    after 0x00000104
     [(0, le 0x0200000000000000000000000000000000000000000000000000000000000000)] 1 =
     some (le 0xf7ffffffffffffffffffffffffffffffffffffffffffffffffffffffffffff3f) ∧
    after 0x00000105
     [(0, le 0xffffffffffffffffffffffffffffffffffffffffffffffffffffffffffffffff)] 1 =
     some (le 0x1200000000000000000000000000000000000000000000000000000000000000) ∧
    after 0x00000105
     [(0, le 0xedffffffffffffffffffffffffffffffffffffffffffffffffffffffffffff7f)] 1 =
     some (le 0x0000000000000000000000000000000000000000000000000000000000000000) := by
  decide +kernel

/-- The base point in P0, from 95_test_vectors.md L2.2. -/
def baseInP0 : List (DReg × Bytes32) :=
  [(0, le 0x1ad5258f602d56c9b2a7259560c72c695cdcd6fd31e2a4c0fe536ecdd3366921),
   (1, le 0x5866666666666666666666666666666666666666666666666666666666666666), (2, 1),
   (3, le 0xa3ddb7a5b38ade6df5525177809ff0207de3ab648e4eea6665768bd70f5f8767)]

/-- The neutral element in P2. -/
def neutralInP2 : List (DReg × Bytes32) := [(9, 1), (10, 1)]

/-- PTOPRE of the base point, with a slot 3 that PMADD must not read (10_state.md R25). -/
def preInP1 : List (DReg × Bytes32) :=
  [(4, le 0x853b8cf5c693bc2f190e8cfbc62d93cfc2423d6498480b2765bad4333a9dcf07),
   (5, le 0x3e9140d70539109db3be40d1059f39fd098a8f683484c1a56712f898922ffd44),
   (6, le 0x68aa7a870512c9ab9ec4aacc23e8d9268c5943ddcb7d1b5aa8650c9f687b116f), (7, 77)]

theorem test_edwards :
    afterPoint 0x00000310 [(12, 9), (15, 9)] 3 =
    [some (le 0x0000000000000000000000000000000000000000000000000000000000000000),
     some (le 0x0100000000000000000000000000000000000000000000000000000000000000),
     some (le 0x0100000000000000000000000000000000000000000000000000000000000000),
     some (le 0x0000000000000000000000000000000000000000000000000000000000000000)] ∧
    afterPoint 0x00000011 [] 0 =
    [some (le 0x1ad5258f602d56c9b2a7259560c72c695cdcd6fd31e2a4c0fe536ecdd3366921),
     some (le 0x5866666666666666666666666666666666666666666666666666666666666666),
     some (le 0x0100000000000000000000000000000000000000000000000000000000000000),
     some (le 0xa3ddb7a5b38ade6df5525177809ff0207de3ab648e4eea6665768bd70f5f8767)] ∧
    afterPoint 0x00000112 baseInP0 1 =
    [some (le 0x7ed63f9fcfe6151592763a1688f844ded91b3c21e1d17657d46a0f9691886f3b),
     some (le 0x7e004a879a4cd3b68d3707516756e1d627b8da140ff421599230db4cce9e6d33),
     some (le 0x08861cf60b5b2d72ba98b531ff7bb250b475f61217b89cfda20ea2521aeae459),
     some (le 0x89d9ca92e3c732c59b133d4800957472c1075eddfea66efcaa8d292dda086e1f)] ∧
    afterPoint 0x00020012 (baseInP0 ++ neutralInP2) 0 =
    [some (le 0x7b54973c82b55825cb9e9654821db3a471715bf7c7889302fb4fb9354fdba405),
     some (le 0x9999999999999999999999999999999999999999999999999999999999999919),
     some (le 0x0400000000000000000000000000000000000000000000000000000000000000),
     some (le 0xc576df96ce2a7ab7d54b45dd017ec283f48daf92393aa99b95d92d5e3f7c1d1e)] ∧
    afterPoint 0x00010213 (baseInP0 ++ preInP1) 2 =
    [some (le 0x7ed63f9fcfe6151592763a1688f844ded91b3c21e1d17657d46a0f9691886f3b),
     some (le 0x7e004a879a4cd3b68d3707516756e1d627b8da140ff421599230db4cce9e6d33),
     some (le 0x08861cf60b5b2d72ba98b531ff7bb250b475f61217b89cfda20ea2521aeae459),
     some (le 0x89d9ca92e3c732c59b133d4800957472c1075eddfea66efcaa8d292dda086e1f)] ∧
    afterPoint 0x00000114 baseInP0 1 =
    [some (le 0x570a30184c86ba7a5b6271faddc16e8809f9b0b7874b22ea4a257c9adb1d2431),
     some (le 0xd77f2d5ed92c4b921c32be2b66aa470af651c93afc82b769db33c96c4c982433),
     some (le 0x6bde78023da97463d19992330061d3eb9262423bfad19840577c576b79c58669),
     some (le 0x99494d1b074eb30e19bbf0edbfda62a30f7ea8484056e440959cb574c97d2418)] ∧
    afterPoint 0x00002114 neutralInP2 1 =
    [some (le 0x0000000000000000000000000000000000000000000000000000000000000000),
     some (le 0xecffffffffffffffffffffffffffffffffffffffffffffffffffffffffffff7f),
     some (le 0xecffffffffffffffffffffffffffffffffffffffffffffffffffffffffffff7f),
     some (le 0x0000000000000000000000000000000000000000000000000000000000000000)] ∧
    afterPoint 0x00000115 (baseInP0 ++ [(7, 9)]) 1 =
    [some (le 0x853b8cf5c693bc2f190e8cfbc62d93cfc2423d6498480b2765bad4333a9dcf07),
     some (le 0x3e9140d70539109db3be40d1059f39fd098a8f683484c1a56712f898922ffd44),
     some (le 0x68aa7a870512c9ab9ec4aacc23e8d9268c5943ddcb7d1b5aa8650c9f687b116f),
     some (le 0x0000000000000000000000000000000000000000000000000000000000000000)] ∧
    afterPoint 0x00000115 [(4, 9)] 1 =
    [some (le 0x0000000000000000000000000000000000000000000000000000000000000000),
     some (le 0x0000000000000000000000000000000000000000000000000000000000000000),
     some (le 0x0000000000000000000000000000000000000000000000000000000000000000),
     some (le 0x0000000000000000000000000000000000000000000000000000000000000000)] ∧
    after 0x00000416 baseInP0 4 = some 9 ∧
    after 0x00002416 ((4, 5) :: neutralInP2) 4 = some 0 ∧
    afterPoint 0x00005017 [] 0 =
    [some (le 0x0000000000000000000000000000000000000000000000000000000000000000),
     some (le 0xecffffffffffffffffffffffffffffffffffffffffffffffffffffffffffff7f),
     some (le 0xecffffffffffffffffffffffffffffffffffffffffffffffffffffffffffff7f),
     some (le 0x0000000000000000000000000000000000000000000000000000000000000000)] ∧
    afterPoint 0x00005017 [(5, 1)] 0 =
    [some (le 0x7b54973c82b55825cb9e9654821db3a471715bf7c7889302fb4fb9354fdba405),
     some (le 0x9999999999999999999999999999999999999999999999999999999999999919),
     some (le 0x0400000000000000000000000000000000000000000000000000000000000000),
     some (le 0xc576df96ce2a7ab7d54b45dd017ec283f48daf92393aa99b95d92d5e3f7c1d1e)] := by
  decide +kernel

theorem test_ladder :
    after 0x00010220
     [(0, le 0x0900000000000000000000000000000000000000000000000000000000000000),
     (1, le 0x0900000000000000000000000000000000000000000000000000000000000000)] 2 =
     some (le 0xba6481668079330e6f7cf8e2e6c2b19974ab1ba40d6044db4877d09791922b19) ∧
    after 0x00010220
     [(0, le 0x70076d0a7318a57d3c16c17251b26645df4c2f87ebc0992ab177fba51db92cea),
     (1, le 0xde9edb7d7b7dc1b4d35b61c2ece435373f8343c85b78674dadfc7e146f882b4f)] 2 =
     some (le 0x4a5d9d5ba4ce2de1728e3bf480350f25e07e21c947d19e3376f09b3c1e161742) := by
  decide +kernel

theorem test_hsalsa :
    after 0x00000130
     [(0, le 0x4a5d9d5ba4ce2de1728e3bf480350f25e07e21c947d19e3376f09b3c1e161742)] 1 =
     some (le 0x1b27556473e985d462cd51197a9a46c76009549eac6474f206c4ee0844f68389) ∧
    after 0x00000130
     [(0, le 0xffffffffffffffffffffffffffffffffffffffffffffffffffffffffffffffff)] 1 =
     some (le 0xd5241c141f2d2b98b083dafcb08a944c0f50da3d94b08fac97f76b0cf65d93d8) := by
  decide +kernel

theorem test_facade :
    after 0x00000140
     [(0, le 0x000102030405060708090a0b0c0d0e0f101112131415161718191a1b1c1d1e1f)] 1 =
     some (le 0x000102030405060708090a0b0c0d0e0f101112131415161718191a1b1c1d1e5f) ∧
    after 0x00000040
     [(0, le 0x77076d0a7318a57d3c16c17251b26645df4c2f87ebc0992ab177fba51db92c2a)] 0 =
     some (le 0x70076d0a7318a57d3c16c17251b26645df4c2f87ebc0992ab177fba51db92c6a) ∧
    after 0x00000142
     [(0, le 0x77076d0a7318a57d3c16c17251b26645df4c2f87ebc0992ab177fba51db92c2a)] 1 =
     some (le 0x8520f0098930a754748b7ddcb43ef75a0dbf3a0d26381af4eba4a98eaa9b4e6a) ∧
    after 0x00000142
     [(0, le 0x0000000000000000000000000000000000000000000000000000000000000000)] 1 =
     some (le 0x2fe57da347cd62431528daac5fbb290730fff684afc4cfc2ed90995f58cb3b74) ∧
    after 0x00010243
     [(0, le 0x77076d0a7318a57d3c16c17251b26645df4c2f87ebc0992ab177fba51db92c2a),
     (1, le 0xde9edb7d7b7dc1b4d35b61c2ece435373f8343c85b78674dadfc7e146f882b4f)] 2 =
     some (le 0x1b27556473e985d462cd51197a9a46c76009549eac6474f206c4ee0844f68389) ∧
    after 0x00010243
     [(0, le 0x77076d0a7318a57d3c16c17251b26645df4c2f87ebc0992ab177fba51db92c2a),
     (1, le 0x0100000000000000000000000000000000000000000000000000000000000000)] 2 =
     some (le 0x351f86faa3b988468a850122b65b0acece9c4826806aeee63de9c0da2bd7f91e) := by
  decide +kernel

/-- The draw is the model's free value, so only the bits R170 fixes can be tested (44_facade.md R172). -/
theorem test_keygen : after 0x00000541 [(5, 1)] 5 = some (clampBytes (Config.rng 0)) := by rfl

theorem test_keygen_draws_ones : clampBytes (le 0xffffffffffffffffffffffffffffffffffffffffffffffffffffffffffffffff) =
    le 0xf8ffffffffffffffffffffffffffffffffffffffffffffffffffffffffffff7f := by decide +kernel

/-- The quarter-round rows of 95_test_vectors.md L2.4. -/
def quarterOf (a b c d : Word) : List Word :=
  let x := quarterRound 0 1 2 3 #v[a, b, c, d, 0, 0, 0, 0, 0, 0, 0, 0, 0, 0, 0, 0]
  [x[0], x[1], x[2], x[3]]

theorem test_quarterRound : quarterOf 1 0 0 0 = [0x08008145, 0x00000080, 0x00010200, 0x20500000] ∧
    quarterOf 0xe7e8c006 0xc4f9417d 0x6479b4b2 0x68c67137 = [0xe876d72b, 0x9361dfd5, 0xf1460244, 0x948541a3] := by
  decide +kernel

theorem test_firstDoubleRound :
    doubleRound (salsaInit (le 0x4a5d9d5ba4ce2de1728e3bf480350f25e07e21c947d19e3376f09b3c1e161742)) =
    #v[0xbfbfbe6c, 0x71c8d19e, 0x36a00e1b, 0xcf3e9165, 0x9356f0a7, 0xc7d4bb64, 0xea74c975, 0xb0f4c673,
       0x5a04abd6, 0x24c79160, 0x2b23c226, 0x0f372564, 0x5e82239d, 0xabd906e0, 0x964e2e69, 0xafedb6ad] := by
  decide +kernel

/-- The state after one step; the state itself if the step stops (it never does). -/
def stepped (s : State) : State :=
  match step s with
  | .next t => t
  | .fault _ => s
  | .refused _ => s

/-! The window, on the rows of 95_test_vectors.md L2.6. -/

/-- `MemRead(off, 4)`: the answer. -/
def memRead (off : BitVec 10) (s : State) : Response := (hostRead (wordAccess off) s).1

/-- `MemWrite(off, 4, v)`: the state after it. -/
def memWrite (off : BitVec 10) (v : Word) (s : State) : State := (hostWrite (wordAccess off) v s).2

theorem test_reset_reads : ([0x000, 0x004, 0x00C, 0x010, 0x100] : List (BitVec 10)).map (memRead · State.reset) =
    [.word 0x45434448, .word 0x00000001, .word 0, .word 0, .word 0] := by decide

theorem test_ctrl_writes : memRead 0x008 (memWrite 0x008 0x00000002 State.reset) = .word 2 ∧
    memRead 0x008 (memWrite 0x008 0xFFFFFFFC State.reset) = .word 0 ∧
    memRead 0x008 (memWrite 0x008 0x00000003 State.reset) = .word 0 := by decide

theorem test_ignored_writes : memWrite 0x000 0x12345678 State.reset = State.reset ∧
    memWrite 0x00C 0x00000F01 State.reset = State.reset := by decide

theorem test_busErrors :
    ([0x014, 0x0FC, 0x102, 0x300, 0x3FC] : List (BitVec 10)).map (memRead · State.reset) =
      [.busError, .busError, .busError, .busError, .busError] ∧
    hostRead ⟨0x100, 1, 0x1⟩ State.reset = (.busError, State.reset) ∧
    hostWrite ⟨0x100, 2, 0x3⟩ 7 State.reset = (.busError, State.reset) := by decide

theorem test_window_bytes :
    (memWrite 0x104 0xAABBCCDD State.reset).reg 0 =
      le 0x00000000ddccbbaa000000000000000000000000000000000000000000000000 ∧
    (memWrite 0x2FC 0x80000000 State.reset).reg 15 =
      le 0x0000000000000000000000000000000000000000000000000000000000000080 := by decide +kernel

/-- KEYGEN launched, seen before the step, after it, and after DONE is cleared (L2.6). -/
theorem test_keygen_shell :
    memRead 0x00C (memWrite 0x010 0x00000041 State.reset) = .word 1 ∧
    memRead 0x010 (memWrite 0x010 0x00000041 State.reset) = .word 0x41 ∧
    memRead 0x00C (stepped (memWrite 0x010 0x00000041 State.reset)) = .word 2 ∧
    memRead 0x00C (memWrite 0x00C 0x00000002 (stepped (memWrite 0x010 0x00000041 State.reset))) = .word 0 := by
  refine ⟨by decide, by decide, rfl, rfl⟩

/-- PLDI p3 completed with IE set. -/
def pldiDone : State := stepped (memWrite 0x010 0x00000310 (memWrite 0x008 2 State.reset))

/-- irq with IE set: high after the completion, low once DONE is cleared, IE is cleared, a new command is accepted or
a reset occurs (L2.6). -/
theorem test_irq : pldiDone.irq = true ∧ (memWrite 0x00C 2 pldiDone).irq = false ∧
    (memWrite 0x008 0 pldiDone).irq = false ∧ (memWrite 0x010 0x41 pldiDone).irq = false ∧
    pldiDone.applyReset.irq = false := by decide

/-- L3.5: a bad word's STATUS, and the busy read before the step. -/
theorem test_errors_and_busy :
    memRead 0x00C (stepped (memWrite 0x010 0x00100412 State.reset)) = .word 0x00000206 ∧
    memRead 0x010 (stepped (memWrite 0x010 0x00100412 State.reset)) = .word 0x00100412 ∧
    memRead 0x100 (memWrite 0x010 0x00000114 (holding [(0, 5)])) = .word 0 ∧
    memRead 0x00C (hostRead (wordAccess 0x100) (memWrite 0x010 0x00000114 State.reset)).2 = .word 0x00000009 := by
  decide

/-! Text and macros (30_encoding.md R89, R90). -/

theorem test_assemble :
    assemble ['F', 'A', 'D', 'D', ' ', 'd', '2', ',', ' ', 'd', '0', ',', 'D', '1', ' ', ';', ' ', 'x'] = some 0x00010201 ∧
    assemble ['p', 't', 'o', 'u', ' ', 'd', '1', '2', ',', 'p', '3'] = some 0x00003C16 ∧
    assemble ['P', 'D', 'B', 'L', ' ', 'p', '0', ',', ' ', 'p', '4'] = none := by decide +kernel

theorem test_pseudo : expandPseudo (.x25519 2 0 1) = [.clamp 2 0, .ladder 2 2 1] ∧
    pseudoCondition (.x25519 2 0 2) = false ∧ expandPseudo (.fsqr 3 4) = [.fmul 3 4 4] ∧
    expandPseudo (.ecdh 3 4 5) = [.deriveshared 3 4 5] := by decide

theorem test_wrd_first_and_last : (macroWrd 1 (le 0x0a)).head? = some (writeTurn 0x120 0) ∧
    (macroWrd 1 1).head? = some (writeTurn 0x120 1) ∧ (macroRdd 15).getLast? = some (readTurn 0x2FC) := by
  decide +kernel

/-- A string as its hex digits are written: byte 0 is 0x0a, byte 31 is 0xff; 62 or 66 digits are no string. -/
def tenHex : List Char := ['0', 'a'] ++ List.replicate 60 '0' ++ ['F', 'f']

theorem test_wrdHex : hexString? tenHex = some (le 0x0a000000000000000000000000000000000000000000000000000000000000ff) ∧
    hexString? (tenHex.drop 2) = none ∧ hexString? (tenHex ++ ['0', '0']) = none ∧
    hexString? ('g' :: tenHex.drop 1) = none ∧
    (macroWrdHex 1 tenHex).bind List.head? = some (writeTurn 0x120 0x0000000a) := by decide +kernel

/-- RDD of an idle register, of a busy engine, whose reads return 0, and CHECK after a success and after an error. -/
theorem test_rdd_and_check : rddValue 5 (holding [(5, le 0x000102030405060708090a0b0c0d0e0f101112131415161718191a1b1c1d1e1f)]) =
      some (le 0x000102030405060708090a0b0c0d0e0f101112131415161718191a1b1c1d1e1f) ∧
    rddValue 5 (memWrite 0x010 0x00000310 (holding [(5, 7)])) = some 0 ∧
    rddBytes [.word 1, .word 2] = none ∧ checkSucceeds pldiDone = true ∧
    checkSucceeds (stepped (memWrite 0x010 0x000000FF State.reset)) = false := by decide +kernel

/-! The wait-for-completion rule (70_reset_and_hazards.md R240): PLDI p3 is launched, and then D12 is read. -/

/-- All of these turns from reset, with IE as given, keep the rule. -/
def keepsRule (ie : Bool) (ts : List Turn) : Bool :=
  safeRun (ts.length + 2) { State.reset with ie := ie, turns := writeTurn 0x010 0x00000310 :: ts ++ [readTurn 0x280] }

/-- The engine's step alone, or a poll that sees BUSY = 1, does not end the wait; nor does irq with IE = 0. -/
theorem test_wait_broken : keepsRule false [.engine] = false ∧ keepsRule false [readTurn 0x00C] = false ∧
    keepsRule false [readTurn 0x00C, .engine] = false ∧ keepsRule false [.engine, .takeIrq] = false ∧
    keepsRule true [.takeIrq, .engine] = false ∧ keepsRule false [.engine, writeTurn 0x010 0x41] = false := by decide

/-- A poll that sees BUSY = 0, the interrupt taken, and a reset end it. -/
theorem test_wait_kept : keepsRule false [.engine, readTurn 0x00C] = true ∧
    keepsRule false [readTurn 0x00C, .engine, readTurn 0x00C] = true ∧
    keepsRule true [.engine, .takeIrq] = true ∧ keepsRule false [.rstN] = true ∧
    keepsRule false [writeTurn 0x008 1] = true := by decide

/-! Witnesses: for each statement with hypotheses a concrete state and operands that meet all of them, and for each
clause one at a boundary. -/

/-- A command is pending in `holding l` and the engine moves next. -/
def pending (w : Word) (l : List (DReg × Bytes32)) : State := (holding l).launch w

/-- Words for the clauses of an encoding without point fields: w2 has a nonzero bit above the fields, w0 has none. -/
abbrev Words (op fields w2 w0 : Nat) : Prop :=
  w2 % 256 = op ∧ w2 / 2 ^ (8 + 4 * fields) ≠ 0 ∧ w0 % 256 = op ∧ w0 / 2 ^ (8 + 4 * fields) = 0

/-- And of one with point fields: w3 has one of 4–15, w0 has all in 0–3. -/
abbrev PointWords (op fields : Nat) (points : List Nat) (w2 w3 w0 : Nat) : Prop :=
  Words op fields w2 w0 ∧ (∀ lo ∈ points, w0 / 2 ^ lo % 16 < 4) ∧
    w3 % 256 = op ∧ w3 / 2 ^ (8 + 4 * fields) = 0 ∧ ∃ lo ∈ points, 4 ≤ w3 / 2 ^ lo % 16

theorem witness_FaddWritesSumModP : Words 0x01 3 0x00100001 0x000FFF01 := by decide
theorem witness_FsubWritesDifferenceModP : Words 0x02 3 0x00100002 0x000FFF02 := by decide
theorem witness_FmulWritesProductModP : Words 0x03 3 0x80000003 0x000FFF03 := by decide
theorem witness_FcanonWritesReducedValue : Words 0x05 2 0x00010005 0x0000FF05 := by decide
theorem witness_PldiLoadsNeutralElement : PointWords 0x10 1 [8] 0x00001010 0x00000410 0x00000310 := by decide
theorem witness_PldbLoadsBasePoint : PointWords 0x11 1 [8] 0x00001011 0x00000411 0x00000311 := by decide
theorem witness_PaddWritesUnifiedSum : PointWords 0x12 3 [8, 12, 16] 0x00100012 0x00040112 0x00033312 := by decide
theorem witness_PdblWritesDouble : PointWords 0x14 2 [8, 12] 0x00010014 0x00004014 0x00003314 := by decide
theorem witness_PtouWritesMontgomeryU : PointWords 0x16 2 [12] 0x00010016 0x00004016 0x00003F16 := by decide
theorem witness_PbasemulWritesDoubleAndAdd : PointWords 0x17 2 [8] 0x00040017 0x00000417 0x0000F317 := by decide
theorem witness_LadderWritesSwapStepSwapBack : Words 0x20 3 0x00100020 0x000FFF20 := by decide
theorem witness_HsalsaWritesTenDoubleRounds : Words 0x30 2 0x00010030 0x0000FF30 := by decide
theorem witness_ClampChangesOnlyItsBits : Words 0x40 2 0x00010040 0x0000FF40 := by decide
theorem witness_KeygenWritesClampedDraw : Words 0x41 1 0x00001041 0x00000F41 := by decide

theorem witness_FinvWritesFermatPower : Words 0x04 2 0x00010204 0x0000FF04 ∧ readFe State.reset 0 = 0 ∧
    readFe (holding [(0, 2)]) 0 ≠ 0 := by
  refine ⟨by decide, ?_, ?_⟩
  · rw [readFe, show low255 State.reset 0 = 0 by decide +kernel, Nat.cast_zero]
  · rw [readFe, show low255 (holding [(0, 2)]) 0 = 2 by decide +kernel, Ne, ZMod.natCast_eq_zero_iff]
    decide

theorem witness_PmaddWritesMixedSum : PointWords 0x13 3 [8, 12, 16] 0x00100013 0x00040113 0x00020213 ∧
    ∃ x y : F, readFe State.reset (at4 3 0) = y + x ∧ readFe State.reset (at4 3 1) = y - x ∧
      readFe State.reset (at4 3 2) = twoD * x * y := by
  have h0 : low255 State.reset (at4 3 0) = 0 := by decide +kernel
  have h1 : low255 State.reset (at4 3 1) = 0 := by decide +kernel
  have h2 : low255 State.reset (at4 3 2) = 0 := by decide +kernel
  exact ⟨by decide, 0, 0, by simp [readFe, h0], by simp [readFe, h1], by simp [readFe, h2]⟩

/-- The clamped copy the statements quantify over exists. -/
theorem clampOf_clampBytes (b : Bytes32) : ClampOf (clampBytes b) b := fun _ hj => getLsbD_clampBytes b hj

theorem witness_DerivepubEqualsUnitCommands : Words 0x42 2 0x00010042 0x0000FF42 ∧
    ∃ c, ClampOf c (State.reset.reg 0) ∧ ∃ q : Point, q = Reference.baseMul c.toNat :=
  ⟨by decide, _, clampOf_clampBytes _, _, rfl⟩

theorem witness_FinvInvertsEveryNonzero : (1 : DReg) ≠ 0 ∧ low255 State.reset 0 % P = 0 ∧
    low255 (holding [(0, 2)]) 0 % P ≠ 0 := by decide +kernel

theorem witness_FieldCommandsObeyRingLaws : ((3 : DReg) ≠ 2 ∧ (4 : DReg) ≠ 0) ∧
    ((3 : DReg) ≠ 0 ∧ (4 : DReg) ≠ 0 ∧ (4 : DReg) ≠ 2 ∧ (5 : DReg) ≠ 4) ∧
    (low255 (holding [(1, 3), (2, BitVec.ofNat 256 (P - 3))]) 2 +
      low255 (holding [(1, 3), (2, BitVec.ofNat 256 (P - 3))]) 1) % P = 0 := by decide +kernel

theorem witness_PtopreWritesPrecomputedForm : PointWords 0x15 2 [8, 12] 0x00010015 0x00004015 0x00003315 ∧ ∃ x y : F,
    x = readFe State.reset (at4 1 0) * inv (readFe State.reset (at4 1 2)) ∧
    y = readFe State.reset (at4 1 1) * inv (readFe State.reset (at4 1 2)) :=
  ⟨by decide, _, _, rfl, rfl⟩

theorem witness_ExtendedResultsSatisfyXYEqualsZT :
    (∃ t, exec (.padd (num 3) (num 3) (num 0)) State.reset = .next t) ∧
    (∃ t, exec (.pmadd (num 0) (num 3) (num 1)) State.reset = .next t) ∧
    (∃ t, exec (.pdbl (num 0) (num 3)) State.reset = .next t) ∧
    (∃ t, exec (.pbasemul (num 0) 15) State.reset = .next t) ∧
    (∃ t, exec (.pldi (num 0)) State.reset = .next t) ∧ (∃ t, exec (.pldb (num 3)) State.reset = .next t) :=
  ⟨⟨_, rfl⟩, ⟨_, rfl⟩, ⟨_, rfl⟩, ⟨_, rfl⟩, ⟨_, rfl⟩, ⟨_, rfl⟩⟩

/-- The neutral element in P2: Z = 1 and T = 0 = X · Y. -/
theorem witness_MixedAdditionAgreesWithAddition : (1 : PReg) ≠ 0 ∧ readFe (holding neutralInP2) (at4 2 2) = 1 ∧
    readFe (holding neutralInP2) (at4 2 3) = readFe (holding neutralInP2) (at4 2 0) * readFe (holding neutralInP2) (at4 2 1) := by
  have h0 : low255 (holding neutralInP2) (at4 2 0) = 0 := by decide +kernel
  have h2 : low255 (holding neutralInP2) (at4 2 2) = 1 := by decide +kernel
  have h3 : low255 (holding neutralInP2) (at4 2 3) = 0 := by decide +kernel
  simp [readFe, h0, h2, h3]

/-- Scalars that differ in bit 255 and u values that differ by p. -/
theorem witness_LadderIgnoresBit255 :
    low255 (holding [(0, 1), (1, 9)]) 0 = low255 (holding [(0, 1 + (1 <<< 255)), (1, BitVec.ofNat 256 (P + 9))]) 0 ∧
    low255 (holding [(0, 1), (1, 9)]) 1 % P =
      low255 (holding [(0, 1 + (1 <<< 255)), (1, BitVec.ofNat 256 (P + 9))]) 1 % P := by decide +kernel

theorem witness_LadderOfZeroIsZero : low255 (holding [(0, 5), (1, BitVec.ofNat 256 P)]) 1 % P = 0 ∧
    low255 (holding [(0, 1 <<< 255), (1, 9)]) 0 = 0 := by decide +kernel

theorem witness_LadderByOneReturnsU : (holding [(0, 1), (1, 9)]).reg 0 = 1 := by decide

theorem witness_DerivesharedEqualsUnitCommands : Words 0x43 3 0x00100043 0x000FFF43 ∧ (2 : DReg) ≠ 1 ∧
    ∃ c, ClampOf c (State.reset.reg 0) := ⟨by decide, by decide, _, clampOf_clampBytes _⟩

theorem witness_FacadeClampsACopy : (2 : DReg) ≠ 1 := by decide

theorem witness_EveryCommandCompletesWithinItsFrame : (Instr.padd 3 2 1).wf = true ∧
    (Instr.ptou 15 3).wf = true := by decide

theorem witness_PointOutOfRangeReportsInvalidArgument : (Instr.padd 0 0 4).wf = false ∧
    (Instr.ptou 0 15).wf = false := by decide

/-- Two states that differ outside the sources of PMADD (slot 3 of its second operand among them). -/
theorem witness_ResultsDependOnSourcesAlone : (Instr.pmadd 2 0 1).wf = true ∧
    (∀ rd, Instr.pmadd 2 0 1 ≠ .keygen rd) ∧ holding [(0, 3)] ≠ holding [(0, 3), (7, 5)] ∧
    ∀ r ∈ sources (.pmadd 2 0 1), (holding [(0, 3)]).reg r = (holding [(0, 3), (7, 5)]).reg r := by
  refine ⟨by decide, fun rd => by simp, by decide, by decide⟩

theorem witness_FieldResultsAreCanonical : ∃ t, (Instr.fcanon 1 0).wf = true ∧ writesField (.fcanon 1 0) = true ∧
    exec (.fcanon 1 0) (holding [(0, BitVec.allOnes 256)]) = .next t := ⟨_, by decide, by decide, rfl⟩

theorem witness_DecodeGivesBackEncoded : (Instr.pmadd 3 0 3).wf = true := by decide

theorem witness_DecodedWordIsItsEncoding : decode 0x00020213 = .ok (.pmadd 2 0 2) := by decide

/-- A word for each clause; the clauses exclude each other. -/
theorem witness_CompletionCodePriority : (0xFFFFFFFF : Word).toNat % 256 ∉ assigned ∧
    ((0x00001041 : Word).toNat % 256 ∈ assigned ∧
      (0x00001041 : Word).toNat / 2 ^ (8 + 4 * usedFields ((0x00001041 : Word).toNat % 256)) ≠ 0) ∧
    ((0x00040112 : Word).toNat % 256 ∈ assigned ∧
      (0x00040112 : Word).toNat / 2 ^ (8 + 4 * usedFields ((0x00040112 : Word).toNat % 256)) = 0 ∧
      BadPoint (0x00040112 : Word).toNat) ∧
    (0x00030312 : Word).toNat % 256 ∈ assigned ∧
      (0x00030312 : Word).toNat / 2 ^ (8 + 4 * usedFields ((0x00030312 : Word).toNat % 256)) = 0 ∧
      ¬ BadPoint (0x00030312 : Word).toNat := by
  unfold BadPoint
  decide

theorem witness_AssemblerReadsBackItsText : (Instr.ptou 15 3).wf = true := by decide

theorem witness_StepRunsDecodedCommand :
    (pending 0x00000310 []).busy = true ∧ decode (pending 0x00000310 []).pend = .ok (.pldi 3) ∧
    (pending 0x00000310 []).turns = [.engine] ∧
    (State.reset.acceptCommand 0x00000310).busy = true ∧
    decode (State.reset.acceptCommand 0x00000310).pend = .ok (.pldi 3) ∧
    (State.reset.acceptCommand 0x00000310).turns = [] := by decide

theorem witness_BadWordCompletesWithError : (pending 0x00000412 []).busy = true ∧
    decode (pending 0x00000412 []).pend = .error .invalidArgument := by decide

/-- A command with rst_n, with a CTRL soft reset, or with a CMD write next. -/
theorem witness_OnlyCmdWriteAndResetChangePend :
    (∃ t, step { State.reset with pend := 5, turns := [.rstN] } = .next t ∧ t.pend ≠ 5) ∧
    (∃ t, step { State.reset with pend := 5, turns := [.host (.write ⟨0x008, 4, 0xF⟩ 1)] } = .next t ∧ t.pend ≠ 5) ∧
    (∃ t, step { State.reset with pend := 5, turns := [.host (.write ⟨0x010, 4, 0xF⟩ 7)] } = .next t ∧ t.pend ≠ 5) :=
  ⟨⟨_, rfl, by decide⟩, ⟨_, rfl, by decide⟩, ⟨_, rfl, by decide⟩⟩

theorem witness_StepKeepsStatusCoherent : (pending 0x00000310 []).Coherent ∧
    ∃ t, step (pending 0x00000310 []) = .next t :=
  ⟨⟨by decide, by decide, by decide, by decide⟩, _, rfl⟩

theorem witness_CtrlWriteSetsIeOrResets : (0x00000002 : Word).getLsbD 0 = false ∧
    (0x00000003 : Word).getLsbD 0 = true ∧
    ∃ t, (hostWrite ⟨0x008, 4, 0xF⟩ 0x00000003 pldiDone).2 = t := ⟨by decide, by decide, _, rfl⟩

theorem witness_CmdWriteLaunchesOrFlags : State.reset.busy = false ∧ (pending 0x00000310 []).busy = true := by decide

theorem witness_DataWindowIdleAccess : State.reset.busy = false ∧
    (0x100 : BitVec 10).toNat = 0x100 + 32 * (0 : DReg).val + 4 * (0 : Fin 8).val ∧
    (0x2FC : BitVec 10).toNat = 0x100 + 32 * (15 : DReg).val + 4 * (7 : Fin 8).val := by decide

theorem witness_DataWindowBusyAccess : (pending 0x00000310 []).busy = true ∧
    (0x100 ≤ (0x100 : BitVec 10).toNat ∧ (0x100 : BitVec 10).toNat ≤ 0x2FC ∧ (0x100 : BitVec 10).toNat % 4 = 0) ∧
    0x100 ≤ (0x2FC : BitVec 10).toNat ∧ (0x2FC : BitVec 10).toNat ≤ 0x2FC ∧ (0x2FC : BitVec 10).toNat % 4 = 0 := by
  decide

/-- One access for each way to be wrong, at the ends of the unmapped ranges. -/
theorem witness_BadAccessIsBusErrorWithoutEffect : (⟨0x100, 2, 0xF⟩ : Access).size ≠ 4 ∧
    (⟨0x100, 4, 0x7⟩ : Access).enables ≠ 0xF ∧ (⟨0x101, 4, 0xF⟩ : Access).off.toNat % 4 ≠ 0 ∧
    (0x014 ≤ (⟨0x014, 4, 0xF⟩ : Access).off.toNat ∧ (⟨0x0FC, 4, 0xF⟩ : Access).off.toNat ≤ 0x0FF) ∧
    0x300 ≤ (⟨0x300, 4, 0xF⟩ : Access).off.toNat ∧ 0x300 ≤ (⟨0x3FC, 4, 0xF⟩ : Access).off.toNat := by decide

theorem witness_ReadsChangeAtMostAccerr : ∃ r t, hostRead ⟨0x2FC, 4, 0xF⟩ (pending 0x00000310 []) = (r, t) ∧
    t ≠ pending 0x00000310 [] := ⟨_, _, rfl, by decide⟩

theorem witness_RunningCommandIsFrozen : (pending 0x00000310 []).busy = true ∧
    ¬ IsReset (.host (.write ⟨0x010, 4, 0xF⟩ 0x41)) := by
  refine ⟨by decide, ?_⟩
  rintro (h | ⟨v, h, -⟩) <;> simp at h

theorem witness_BusyWindowHidesRegisters : (pending 0x00000310 []).busy = true ∧
    Turn.engine ∉ [readTurn 0x100, .takeIrq, .rstN, writeTurn 0x010 0x41, readTurn 0x00C] := by decide

theorem witness_WordWritesAssembleTheRegister : (holding [(15, 7)]).busy = false := by decide

theorem witness_ExecMacroRunsTheCommand : State.reset.busy = false ∧ (Instr.pldb 3).wf = true := by decide

theorem witness_CompletionRaisesIrqIfEnabled :
    (pending 0x00000310 []).busy = true ∧ (pending 0x00000310 []).turns = [.engine] ∧
    (pending 0x000000FF []).busy = true ∧ (pending 0x000000FF []).turns = [.engine] := by decide

theorem witness_IrqFollowsDoneAndIe : (0x00000002 : Word).getLsbD 1 = true ∧ pldiDone.busy = false ∧
    (0x00000000 : Word).getLsbD 1 = false ∧ (0x00000003 : Word).getLsbD 0 = true ∧ (0x00000002 : Word).getLsbD 0 = false ∧
    ∃ t, takeTurn .rstN pldiDone = .next t := ⟨by decide, by decide, by decide, by decide, by decide, _, rfl⟩

theorem witness_ResetDiscardsPendingCommand : (pending 0x00000310 []).busy = true ∧ IsReset .rstN ∧
    IsReset (writeTurn 0x008 0x00000003) := ⟨by decide, .inl rfl, .inr ⟨_, rfl, by decide⟩⟩

theorem witness_ResetValues : (∃ t, takeTurn .rstN pldiDone = .next t) ∧
    (0x00000003 : Word).getLsbD 0 = true ∧ ∃ t, t = (hostWrite ⟨0x008, 4, 0xF⟩ 0x00000003 pldiDone).2 :=
  ⟨⟨_, rfl⟩, by decide, _, rfl⟩

end Sys2Proof.Tests
end

section
/-! PROOFS. The statements about the architectural state (10_state.md), after the facts they rest on: how every
command ends, which access reaches CTRL and CMD, what a reset leaves, and what each command on point registers runs. -/

namespace Sys2Proof.Machine

open Sys2Proof.Reference

/-! How a command ends. -/

/-- The four ways a command ends from `s`: one register written, the four slots of a point register written, the clamp
of a draw written, or the INVALID_ARGUMENT completion (60_exceptions.md R204, R210). -/
inductive Ending (s : State) : Result → Prop where
  | reg (i : DReg) (v : Bytes32) : Ending s (finishReg i v s)
  | point (n : PReg) (a b c e : Bytes32) : Ending s (finishPoint n a b c e s)
  | drawn (i : DReg) : Ending s (finishReg i (clampBytes s.draw.1) s.draw.2)
  | invalid : Ending s (finishInvalid s)

/-- Every command ends in one of the four ways, on every state and whatever its operands. -/
theorem exec_ending (i : Instr) (s : State) : Ending s (exec i s) := by
  cases i with
  | fadd | fsub | fmul | finv | fcanon | ladder | hsalsa | clamp | derivepub | deriveshared => exact .reg _ _
  | keygen rd => exact .drawn rd
  | pldi | pldb | padd | pmadd | pdbl | ptopre | ptou | pbasemul =>
    simp only [exec, execPldi, execPldb, execPadd, execPmadd, execPdbl, execPtopre, execPtou, execPbasemul]
    split <;> constructor

/-- No ending changes PEND (10_state.md R33). -/
theorem Ending.pend_eq {s t : State} (h : Ending s (.next t)) : t.pend = s.pend := by
  cases h <;> rfl

/-- The engine's turn leaves PEND alone: a command that runs, a bad word and an idle engine alike (10_state.md R33). -/
theorem engineTurn_pend {s t : State} (h : engineTurn s = .next t) : t.pend = s.pend := by
  cases hb : s.busy with
  | false =>
    rw [engineTurn_idle hb] at h
    cases h
    rfl
  | true =>
    rw [engineTurn_busy hb] at h
    cases hd : decode s.pend with
    | ok i =>
      rw [engineStep_ok hd] at h
      exact Ending.pend_eq (h ▸ exec_ending i s)
    | error e =>
      rw [engineStep_error hd] at h
      cases h
      rfl

/-! The accesses that reach CTRL and CMD (20_memory.md R51, R54). -/

theorem hostWrite_ctrl (v : Word) (s : State) : hostWrite ⟨0x008, 4, 0xF⟩ v s = (.done, s.writeCtrl v) := rfl

theorem hostWrite_status (v : Word) (s : State) :
    hostWrite ⟨0x00C, 4, 0xF⟩ v s = (.done, s.writeStatus v) := rfl

theorem hostWrite_cmd (v : Word) (s : State) : hostWrite ⟨0x010, 4, 0xF⟩ v s = (.done, s.writeCmd v) := rfl

theorem hostRead_ctrl (s : State) : hostRead ⟨0x008, 4, 0xF⟩ s = (.word s.ctrlWord, s) := rfl

theorem writeCmd_of_busy {s : State} (h : s.busy = true) (w : Word) : s.writeCmd w = s.flagAccess := by
  simp [State.writeCmd, h]

theorem writeCmd_of_idle {s : State} (h : s.busy = false) (w : Word) : s.writeCmd w = s.acceptCommand w := by
  simp [State.writeCmd, h]

/-- What an access reaches is what the map names at its offset, and the access is a whole word there. -/
theorem target?_eq_some_iff {a : Access} {x : Target} :
    a.target? = some x ↔ (a.size = 4 ∧ a.enables = 0xF ∧ a.off.toNat % 4 = 0) ∧ targetAt? a.off.toNat = some x := by
  simp [Access.target?, Access.legal, and_assoc]

theorem targetAt?_eq_ctrl {n : Nat} (h : targetAt? n = some .ctrl) : n = 0x008 := by
  unfold targetAt? at h
  grind

theorem targetAt?_eq_cmd {n : Nat} (h : targetAt? n = some .cmd) : n = 0x010 := by
  unfold targetAt? at h
  grind

/-- An access that reaches something is the whole word at its offset; `hoff` says where the map puts the target. -/
theorem eq_of_target? {a : Access} {x : Target} {off : BitVec 10} (h : a.target? = some x)
    (hoff : targetAt? a.off.toNat = some x → a.off.toNat = off.toNat) : a = ⟨off, 4, 0xF⟩ := by
  obtain ⟨⟨hsize, henables, -⟩, ht⟩ := target?_eq_some_iff.mp h
  have heq : a.off = off := BitVec.eq_of_toNat_eq (hoff ht)
  cases a
  simp_all

theorem eq_of_target?_ctrl {a : Access} (h : a.target? = some .ctrl) : a = ⟨0x008, 4, 0xF⟩ :=
  eq_of_target? h targetAt?_eq_ctrl

theorem eq_of_target?_cmd {a : Access} (h : a.target? = some .cmd) : a = ⟨0x010, 4, 0xF⟩ :=
  eq_of_target? h targetAt?_eq_cmd

theorem hostRead_pend (a : Access) (s : State) : (hostRead a s).2.pend = s.pend := by
  unfold hostRead
  repeat' split
  all_goals rfl

/-- A write that changes PEND is a CTRL write with SRST set, after which PEND is 0, or a CMD write while idle, after
which PEND is the word (10_state.md R33). -/
theorem hostWrite_pend_ne {a : Access} {v : Word} {s : State} (h : (hostWrite a v s).2.pend ≠ s.pend) :
    (a = ⟨0x008, 4, 0xF⟩ ∧ v.getLsbD 0 = true ∧ (hostWrite a v s).2.pend = 0) ∨
    (a = ⟨0x010, 4, 0xF⟩ ∧ s.busy = false ∧ (hostWrite a v s).2.pend = v) := by
  unfold hostWrite at h ⊢
  cases ht : a.target? with
  | none => simp [ht] at h
  | some x =>
    cases x with
    | id | version | status => simp [ht] at h
    | data i w => cases hb : s.busy <;> simp [ht, hb] at h
    | ctrl =>
      cases hv : v.getLsbD 0 with
      | false => simp [ht, writeCtrl_of_false s hv] at h
      | true => exact .inl ⟨eq_of_target?_ctrl ht, rfl, by simp [writeCtrl_of_true s hv]⟩
    | cmd =>
      cases hb : s.busy with
      | true => simp [ht, writeCmd_of_busy hb] at h
      | false => exact .inr ⟨eq_of_target?_cmd ht, rfl, by simp [writeCmd_of_idle hb]⟩

/-- Settles O41: of the events of a step only rst_n and the two writes of `hostWrite_pend_ne` change PEND. -/
theorem onlyCmdWriteAndResetChangePend : Obligations.OnlyCmdWriteAndResetChangePend := by
  unfold Obligations.OnlyCmdWriteAndResetChangePend
  intro s t hstep hne
  cases hts : s.turns with
  | nil => exact absurd (engineTurn_pend (step_nil hts ▸ hstep)) hne
  | cons x ts =>
    rw [step_cons hts] at hstep
    cases x with
    | engine => exact absurd (engineTurn_pend (s := { s with turns := ts }) hstep) hne
    | takeIrq => cases hstep; exact absurd rfl hne
    | rstN => cases hstep; exact .inl ⟨_, _, rfl, .inl rfl, rfl⟩
    | host act =>
      cases hstep
      cases act with
      | read a => exact absurd (hostRead_pend a { s with turns := ts }) hne
      | write a v =>
        obtain ⟨rfl, hv, hp⟩ | ⟨rfl, hb, hp⟩ := hostWrite_pend_ne (s := { s with turns := ts }) hne
        · exact .inl ⟨_, _, rfl, .inr ⟨v, rfl, hv⟩, hp⟩
        · exact .inr ⟨v, ts, rfl, hb, hp⟩

/-! The engine's step. -/

/-- Settles O38: the step is the engine's turn when no turn is left and the first turn otherwise, and a busy engine's
turn runs the decoded command. -/
theorem stepRunsDecodedCommand : Obligations.StepRunsDecodedCommand := by
  unfold Obligations.StepRunsDecodedCommand
  intro s
  refine ⟨fun i hbusy hdec => ⟨fun hnil => ?_, fun ts hcons => ?_⟩, fun x ts hcons => step_cons hcons⟩
  · rw [step_nil hnil, engineTurn_busy hbusy, engineStep_ok hdec]
  · rw [step_cons hcons]
    exact (engineTurn_busy (s := { s with turns := ts }) hbusy).trans (engineStep_ok hdec)

/-! What a reset leaves (10_state.md R38). -/

/-- Every piece of state that the spec names has its reset value. -/
structure HasResetValues (t : State) : Prop where
  reg : ∀ i : DReg, t.reg i = 0
  ie : t.ie = false
  busy : t.busy = false
  done : t.done = false
  err : t.err = false
  accerr : t.accerr = false
  errcode : t.errcode = 0
  pend : t.pend = 0

theorem applyReset_hasResetValues (s : State) : HasResetValues s.applyReset :=
  ⟨applyReset_reg s, rfl, rfl, rfl, rfl, rfl, rfl, rfl⟩

theorem reset_hasResetValues : HasResetValues State.reset :=
  ⟨reset_reg, rfl, rfl, rfl, rfl, rfl, rfl, rfl⟩

theorem HasResetValues.irq {t : State} (h : HasResetValues t) : t.irq = false := by
  simp [State.irq, h.done]

/-- CTRL reads 0 after a reset: SRST always reads 0 and IE is 0 (10_state.md R28). -/
theorem HasResetValues.readCtrl {t : State} (h : HasResetValues t) : hostRead ⟨0x008, 4, 0xF⟩ t = (.word 0, t) := by
  rw [hostRead_ctrl, State.ctrlWord, h.ie]
  rfl

/-- Settles O43: the reset state is idle, not done, and its ERRCODE and PEND are 0. -/
theorem resetIsCoherent : Obligations.ResetIsCoherent := by
  unfold Obligations.ResetIsCoherent
  have h := reset_hasResetValues
  exact ⟨fun _ => h.done, fun hd => absurd (h.done.symm.trans hd) Bool.false_ne_true,
    fun _ => .inr ⟨h.pend, h.errcode⟩, by simp [h.errcode]⟩

/-- Settles O46: bit 0 of the written word decides between the write of IE alone and the reset. -/
theorem ctrlWriteSetsIeOrResets : Obligations.CtrlWriteSetsIeOrResets := by
  unfold Obligations.CtrlWriteSetsIeOrResets
  refine fun s v => ⟨fun hv => ?_, fun hv t ht => ?_⟩
  · rw [hostWrite_ctrl, writeCtrl_of_false s hv]
  · rw [hostWrite_ctrl, writeCtrl_of_true s hv] at ht
    subst ht
    obtain ⟨hreg, hie, hbusy, hdone, herr, haccerr, herrcode, hpend⟩ := applyReset_hasResetValues s
    exact ⟨hreg, hie, hbusy, hdone, herr, haccerr, herrcode, hpend⟩

/-- Settles O60: each of the three states has the values of R38, and irq and the CTRL read follow from them. -/
theorem resetValues : Obligations.ResetValues := by
  unfold Obligations.ResetValues
  intro s t hreset
  have h : HasResetValues t := by
    obtain rfl | hrst | ⟨v, hv, rfl⟩ := hreset
    · exact reset_hasResetValues
    · cases hrst
      exact applyReset_hasResetValues s
    · rw [hostWrite_ctrl, writeCtrl_of_true s hv]
      exact applyReset_hasResetValues s
  exact ⟨h.reg, h.ie, h.busy, h.done, h.err, h.accerr, h.errcode, h.pend, h.irq, h.readCtrl, rfl, rfl⟩

/-! The interrupt output (10_state.md R34). -/

theorem irq_eq_true_iff (s : State) : s.irq = true ↔ s.done = true ∧ s.ie = true := by
  simp [State.irq]

/-- irq is low when DONE is. -/
theorem irq_of_not_done {s : State} (h : s.done = false) : s.irq = false := by simp [State.irq, h]

/-- irq is low when IE is. -/
theorem irq_of_not_ie {s : State} (h : s.ie = false) : s.irq = false := by simp [State.irq, h]

/-- Settles O58: each fall clears DONE or IE, and a CTRL write that sets IE leaves DONE as it was. -/
theorem irqFollowsDoneAndIe : Obligations.IrqFollowsDoneAndIe := by
  unfold Obligations.IrqFollowsDoneAndIe
  refine fun s v => ⟨irq_eq_true_iff s, fun hv => ?_, fun hb => ?_, fun hv => ?_, fun hv1 hv0 => ?_, ?_⟩
  · exact irq_of_not_done (by rw [hostWrite_status]; simp [hv])
  · rw [hostWrite_cmd, writeCmd_of_idle hb]
    exact irq_of_not_done (acceptCommand_done s v)
  · rw [hostWrite_ctrl]
    cases hv0 : v.getLsbD 0 with
    | true =>
      rw [writeCtrl_of_true s hv0]
      exact (applyReset_hasResetValues s).irq
    | false =>
      rw [writeCtrl_of_false s hv0]
      exact irq_of_not_ie (hv.resolve_right (hv0 ▸ Bool.false_ne_true))
  · rw [hostWrite_ctrl, writeCtrl_of_false s hv0]
    simp [State.irq, hv1]
  · rintro t ⟨⟩
    exact (applyReset_hasResetValues s).irq

/-! Commands on point registers, by the numbers of the registers (30_encoding.md R83). -/

@[simp] theorem pointReg?_num (n : PReg) : pointReg? (num n) = some n := pointReg?_of_lt n.isLt

/-- A legal point field holds the number of a point register. -/
theorem legal_iff_exists_num {p : PNum} : PNum.legal p = true ↔ ∃ n : PReg, p = num n := by
  constructor
  · intro h
    exact ⟨⟨p.val, of_decide_eq_true h⟩, rfl⟩
  · rintro ⟨n, rfl⟩
    exact decide_eq_true n.isLt

theorem exec_pldi_num (d : PReg) (s : State) : exec (.pldi (num d)) s = finishExtended d neutralPoint s := by
  simp [exec, execPldi]

theorem exec_pldb_num (d : PReg) (s : State) : exec (.pldb (num d)) s = finishExtended d basePoint s := by
  simp [exec, execPldb]

theorem exec_padd_num (d a b : PReg) (s : State) : exec (.padd (num d) (num a) (num b)) s =
    finishExtended d (eadd (s.extendedReg a) (s.extendedReg b)) s := by
  simp [exec, execPadd]

theorem exec_pmadd_num (d a b : PReg) (s : State) : exec (.pmadd (num d) (num a) (num b)) s =
    finishExtended d (emadd (s.extendedReg a) (s.precomputedReg b)) s := by
  simp [exec, execPmadd]

theorem exec_pdbl_num (d a : PReg) (s : State) : exec (.pdbl (num d) (num a)) s =
    finishExtended d (edbl (s.projectiveReg a)) s := by
  simp [exec, execPdbl]

theorem exec_ptopre_num (d a : PReg) (s : State) : exec (.ptopre (num d) (num a)) s =
    finishPrecomputed d (toPrecomputed (s.projectiveReg a)) s := by
  simp [exec, execPtopre]

theorem exec_ptou_num (rd : DReg) (a : PReg) (s : State) : exec (.ptou rd (num a)) s =
    finishField rd (toU (s.projectiveReg a)) s := by
  simp [exec, execPtou]

theorem exec_pbasemul_num (d : PReg) (ra : DReg) (s : State) : exec (.pbasemul (num d) ra) s =
    finishExtended d (baseMul (s.scalarReg ra)) s := by
  simp [exec, execPbasemul]

/-- The registers whose number divided by 4 is n are the four slots of P[n] (10_state.md R23). -/
theorem filter_div_four_eq_quad (n : PReg) :
    ((List.finRange 16).filter fun i => i.val / 4 = (num n).val) = quad n := by
  revert n
  decide

/-- The registers of P[n] are its slots. -/
theorem mem_quad_iff {n : PReg} {j : DReg} : j ∈ quad n ↔ ∃ k, j = slot n k := by
  simp [quad, at4, slot, Fin.exists_fin_succ]

/-! Canonical results (10_state.md R27). -/

/-- The string is a value below p, so its bit 255 is clear. -/
def Canonical (b : Bytes32) : Prop := b.toNat < P ∧ b.getLsbD 255 = false

theorem canonical_enc (x : Fe) : Canonical (enc x) := by
  have hlt : (enc x).toNat < P := enc_lt x
  refine ⟨hlt, ?_⟩
  rw [← BitVec.testBit_toNat]
  exact Nat.testBit_lt_two_pow (hlt.trans prime_lt)

/-- A next state holds canonical strings in the registers `ds`. -/
def LeavesCanonical (ds : List DReg) (r : Result) : Prop :=
  ∀ t, r = .next t → ∀ j ∈ ds, Canonical (t.reg j)

theorem finishField_leavesCanonical (i : DReg) (x : Fe) (s : State) : LeavesCanonical [i] (finishField i x s) := by
  rintro t ⟨⟩ j hj
  obtain rfl := List.mem_singleton.mp hj
  rw [completeOk_reg, setReg_reg_self]
  exact canonical_enc x

/-- The four slots of a point register written with encodings are canonical. -/
theorem finishPoint_leavesCanonical (n : PReg) (a b c e : Fe) (s : State) :
    LeavesCanonical (quad n) (finishPoint n (enc a) (enc b) (enc c) (enc e) s) := by
  rintro t ⟨⟩ j hj
  obtain ⟨k, rfl⟩ := mem_quad_iff.mp hj
  rw [completeOk_reg, setPoint_slot]
  fin_cases k <;> exact canonical_enc _

/-- A command that ends by writing an extended point, and whose destinations are its slots, leaves them canonical. -/
theorem leavesCanonical_of_extended {i : Instr} {s : State} {d : PReg} {p : Extended}
    (hexec : exec i s = finishExtended d p s) (hdests : dests i = quad d) : LeavesCanonical (dests i) (exec i s) := by
  rw [hexec, hdests]
  exact finishPoint_leavesCanonical d p.x p.y p.z p.t s

/-- A well-formed command that writes field elements leaves every destination canonical. -/
theorem exec_leavesCanonical (i : Instr) (s : State) (hwf : i.wf = true) (hf : writesField i = true) :
    LeavesCanonical (dests i) (exec i s) := by
  cases i with
  | fadd | fsub | fmul | finv | fcanon | ladder | derivepub => exact finishField_leavesCanonical _ _ s
  | hsalsa | clamp | keygen | deriveshared => cases hf
  | pldi rd =>
    obtain ⟨d, rfl⟩ := legal_iff_exists_num.mp hwf
    exact leavesCanonical_of_extended (exec_pldi_num d s) (filter_div_four_eq_quad d)
  | pldb rd =>
    obtain ⟨d, rfl⟩ := legal_iff_exists_num.mp hwf
    exact leavesCanonical_of_extended (exec_pldb_num d s) (filter_div_four_eq_quad d)
  | padd rd ra rb =>
    simp only [Instr.wf, Bool.and_eq_true, legal_iff_exists_num] at hwf
    obtain ⟨⟨⟨d, rfl⟩, a, rfl⟩, b, rfl⟩ := hwf
    exact leavesCanonical_of_extended (exec_padd_num d a b s) (filter_div_four_eq_quad d)
  | pmadd rd ra rb =>
    simp only [Instr.wf, Bool.and_eq_true, legal_iff_exists_num] at hwf
    obtain ⟨⟨⟨d, rfl⟩, a, rfl⟩, b, rfl⟩ := hwf
    exact leavesCanonical_of_extended (exec_pmadd_num d a b s) (filter_div_four_eq_quad d)
  | pdbl rd ra =>
    simp only [Instr.wf, Bool.and_eq_true, legal_iff_exists_num] at hwf
    obtain ⟨⟨d, rfl⟩, a, rfl⟩ := hwf
    exact leavesCanonical_of_extended (exec_pdbl_num d a s) (filter_div_four_eq_quad d)
  | ptopre rd ra =>
    simp only [Instr.wf, Bool.and_eq_true, legal_iff_exists_num] at hwf
    obtain ⟨⟨d, rfl⟩, a, rfl⟩ := hwf
    rw [exec_ptopre_num, dests, filter_div_four_eq_quad]
    exact finishPoint_leavesCanonical d _ _ _ _ s
  | ptou rd ra =>
    obtain ⟨a, rfl⟩ := legal_iff_exists_num.mp hwf
    rw [exec_ptou_num]
    exact finishField_leavesCanonical rd _ s
  | pbasemul rd ra =>
    obtain ⟨d, rfl⟩ := legal_iff_exists_num.mp hwf
    exact leavesCanonical_of_extended (exec_pbasemul_num d ra s) (filter_div_four_eq_quad d)

/-- Settles O32: every destination of a field command holds the encoding of a field element. -/
theorem fieldResultsAreCanonical : Obligations.FieldResultsAreCanonical := by
  unfold Obligations.FieldResultsAreCanonical
  intro i s t hwf hf hexec r hr
  exact exec_leavesCanonical i s hwf hf t hexec r hr

end Sys2Proof.Machine
end

section
/-! PROOFS. The statements about the window (20_memory.md) and about STATUS, after the facts they rest on: what an
access reaches, what a host access can do to the state, how a decoded command completes, and what two runs that differ
in the data registers alone have in common. -/

namespace Sys2Proof.Machine

open Sys2Proof.Reference

/-! What an access reaches (20_memory.md R51–R57). -/

/-- The ranges between the control registers and the data window, and above it, are unmapped (20_memory.md R57). -/
theorem targetAt?_unmapped {n : Nat} (h : (0x014 ≤ n ∧ n ≤ 0x0FF) ∨ 0x300 ≤ n) : targetAt? n = none := by
  unfold targetAt?
  rw [if_neg (by omega), if_neg (by omega), if_neg (by omega), if_neg (by omega), if_neg (by omega),
    if_neg (by omega)]

/-- Every aligned offset of the data window is a word of a data register (20_memory.md R53). -/
theorem exists_targetAt?_data {n : Nat} (hlo : 0x100 ≤ n) (hhi : n < 0x300) (hal : n % 4 = 0) :
    ∃ i w, targetAt? n = some (.data i w) := by
  obtain ⟨i, w, rfl⟩ : ∃ (i : DReg) (w : Fin 8), n = 0x100 + 32 * i.val + 4 * w.val :=
    ⟨⟨(n - 0x100) / 32, by omega⟩, ⟨(n - 0x100) % 32 / 4, by omega⟩, by simp only; omega⟩
  exact ⟨i, w, targetAt?_data i w⟩

/-- Data registers stand in the data window alone. -/
theorem range_of_targetAt?_data {n : Nat} {i : DReg} {w : Fin 8} (h : targetAt? n = some (.data i w)) :
    0x100 ≤ n ∧ n < 0x300 := by
  unfold targetAt? at h
  grind

/-- A partial, misaligned or unmapped access reaches nothing (20_memory.md R54–R57). -/
theorem target?_eq_none_of_bad {a : Access}
    (h : a.size ≠ 4 ∨ a.enables ≠ 0xF ∨ a.off.toNat % 4 ≠ 0 ∨ (0x014 ≤ a.off.toNat ∧ a.off.toNat ≤ 0x0FF) ∨
      0x300 ≤ a.off.toNat) : a.target? = none := by
  refine Option.eq_none_iff_forall_ne_some.mpr fun x hx => ?_
  obtain ⟨⟨hsize, henables, halign⟩, ht⟩ := target?_eq_some_iff.mp hx
  obtain h | h | h | h := h
  · exact h hsize
  · exact h henables
  · exact h halign
  · simp [targetAt?_unmapped h] at ht

/-! Reads and writes by what the access reaches. -/

section
variable {a : Access} {s : State} {i : DReg} {w : Fin 8}

theorem hostRead_of_none (h : a.target? = none) : hostRead a s = (.busError, s) := by
  simp [hostRead, h]

theorem hostWrite_of_none (h : a.target? = none) (v : Word) : hostWrite a v s = (.busError, s) := by
  simp [hostWrite, h]

theorem hostRead_data_idle (h : a.target? = some (.data i w)) (hb : s.busy = false) :
    hostRead a s = (.word (wordAt (s.reg i) w), s) := by
  simp [hostRead, h, hb]

theorem hostRead_data_busy (h : a.target? = some (.data i w)) (hb : s.busy = true) :
    hostRead a s = (.word 0, s.flagAccess) := by
  simp [hostRead, h, hb]

theorem hostWrite_data_idle (h : a.target? = some (.data i w)) (hb : s.busy = false) (v : Word) :
    hostWrite a v s = (.done, s.setReg i (setWordAt (s.reg i) w v)) := by
  simp [hostWrite, h, hb]

theorem hostWrite_data_busy (h : a.target? = some (.data i w)) (hb : s.busy = true) (v : Word) :
    hostWrite a v s = (.done, s.flagAccess) := by
  simp [hostWrite, h, hb]

end

/-! What a host access can do to the state. -/

/-- A read leaves the state alone, or it is flagged: a data-window read while busy (20_memory.md R62, R64). -/
theorem hostRead_snd (a : Access) (s : State) : (hostRead a s).2 = s ∨
    ((hostRead a s).2 = s.flagAccess ∧ s.busy = true ∧ ∃ i w, a.target? = some (.data i w)) := by
  cases ht : a.target? with
  | none => exact .inl (by rw [hostRead_of_none ht])
  | some x =>
    cases x with
    | id | version | ctrl | status | cmd => exact .inl (by simp [hostRead, ht])
    | data i w =>
      cases hb : s.busy with
      | false => exact .inl (by rw [hostRead_data_idle ht hb])
      | true => exact .inr ⟨by rw [hostRead_data_busy ht hb], rfl, i, w, rfl⟩

/-- The states that the host's access `h` can leave behind, from `s` (20_memory.md R58–R64; 10_state.md R29). -/
inductive HostEffect (h : HostAction) (s : State) : State → Prop where
  | unchanged : HostEffect h s s
  | flagged (hb : s.busy = true) : HostEffect h s s.flagAccess
  | setIe (b : Bool) : HostEffect h s { s with ie := b }
  | softReset (hr : IsReset (.host h)) : HostEffect h s s.applyReset
  | wroteStatus (v : Word) : HostEffect h s (s.writeStatus v)
  | launched (hb : s.busy = false) (v : Word) : HostEffect h s (s.acceptCommand v)
  | stored (hb : s.busy = false) (i : DReg) (b : Bytes32) : HostEffect h s (s.setReg i b)

theorem hostWrite_effect (a : Access) (v : Word) (s : State) :
    HostEffect (.write a v) s (hostWrite a v s).2 := by
  cases ht : a.target? with
  | none => rw [hostWrite_of_none ht]; exact .unchanged
  | some x =>
    cases x with
    | id | version => simp only [hostWrite, ht]; exact .unchanged
    | status => simp only [hostWrite, ht]; exact .wroteStatus v
    | ctrl =>
      rw [eq_of_target?_ctrl ht, hostWrite_ctrl]
      cases hv : v.getLsbD 0 with
      | false => rw [writeCtrl_of_false s hv]; exact .setIe _
      | true => rw [writeCtrl_of_true s hv]; exact .softReset (.inr ⟨v, rfl, hv⟩)
    | cmd =>
      rw [eq_of_target?_cmd ht, hostWrite_cmd]
      cases hb : s.busy with
      | false => rw [writeCmd_of_idle hb]; exact .launched hb v
      | true => rw [writeCmd_of_busy hb]; exact .flagged hb
    | data i w =>
      cases hb : s.busy with
      | false => rw [hostWrite_data_idle ht hb]; exact .stored hb i _
      | true => rw [hostWrite_data_busy ht hb]; exact .flagged hb

theorem hostAccess_effect (h : HostAction) (s : State) : HostEffect h s (hostAccess h s).2 := by
  cases h with
  | write a v => exact hostWrite_effect a v s
  | read a =>
    obtain h | ⟨h, hb, -⟩ := hostRead_snd a s <;> rw [hostAccess, h]
    · exact .unchanged
    · exact .flagged hb

/-- No host access changes the schedule. -/
theorem HostEffect.turns_eq {h : HostAction} {s t : State} (he : HostEffect h s t) : t.turns = s.turns := by
  cases he <;> rfl

/-! How a decoded command completes (60_exceptions.md R202, R204, R210). -/

theorem completionCode_of_ok {w : Word} {i : Instr} (h : decode w = .ok i) : completionCode w = 0 := by
  simp [completionCode, h]

theorem completionCode_of_error {w : Word} {e : DecodeError} (h : decode w = .error e) :
    completionCode w = e.code := by
  simp [completionCode, h]

/-- Codes 4–15 never occur (60_exceptions.md R201). -/
theorem completionCode_le (w : Word) : (completionCode w).toNat ≤ 3 := by
  cases hd : decode w with
  | ok i => simp [completionCode_of_ok hd]
  | error e => rw [completionCode_of_error hd]; cases e <;> decide

/-- The decoder's third check is the well-formedness of the command it builds (60_exceptions.md R205). -/
theorem build_wf (op : Op) (rd ra rb : Fin 16) : (op.build rd ra rb).wf = op.format.pointsLegal rd ra rb := by
  cases op <;> rfl

/-- A decoded command is well formed (30_encoding.md R85). -/
theorem wf_of_decode_ok {w : Word} {i : Instr} (h : decode w = .ok i) : i.wf = true := by
  cases hop : opOf? (opField w) with
  | none => simp [decode_of_no_op hop] at h
  | some op =>
    by_cases hr : w.toNat / 2 ^ op.format.top = 0
    · cases hp : op.format.pointsLegal (rdField w) (raField w) (rbField w) with
      | false => simp [decode_of_bad_point hop hr hp] at h
      | true =>
        rw [decode_of_legal hop hr hp, Except.ok.injEq] at h
        rw [← h, build_wf, hp]
    · simp [decode_of_reserved hop hr] at h

/-- A well-formed command succeeds on every state (60_exceptions.md R203, R210). -/
theorem exec_completedOk {i : Instr} (hwf : i.wf = true) (s : State) :
    ∃ t, exec i s = .next t ∧ CompletedOk t := by
  cases i with
  | fadd | fsub | fmul | finv | fcanon | ladder | hsalsa | clamp | keygen | derivepub | deriveshared =>
    exact ⟨_, rfl, completeOk_completed _⟩
  | pldi rd | pldb rd | pbasemul rd ra =>
    obtain ⟨d, rfl⟩ := legal_iff_exists_num.mp hwf
    simp only [exec_pldi_num, exec_pldb_num, exec_pbasemul_num]
    exact ⟨_, rfl, completeOk_completed _⟩
  | ptou rd ra =>
    obtain ⟨a, rfl⟩ := legal_iff_exists_num.mp hwf
    exact ⟨_, exec_ptou_num rd a s, completeOk_completed _⟩
  | padd rd ra rb | pmadd rd ra rb =>
    simp only [Instr.wf, Bool.and_eq_true, legal_iff_exists_num] at hwf
    obtain ⟨⟨⟨d, rfl⟩, a, rfl⟩, b, rfl⟩ := hwf
    simp only [exec_padd_num, exec_pmadd_num]
    exact ⟨_, rfl, completeOk_completed _⟩
  | pdbl rd ra | ptopre rd ra =>
    simp only [Instr.wf, Bool.and_eq_true, legal_iff_exists_num] at hwf
    obtain ⟨⟨d, rfl⟩, a, rfl⟩ := hwf
    simp only [exec_pdbl_num, exec_ptopre_num]
    exact ⟨_, rfl, completeOk_completed _⟩

/-- A busy engine's turn leaves BUSY clear and in ERRCODE the code of the word in PEND (60_exceptions.md R202). -/
theorem engineTurn_errcode {s t : State} (hb : s.busy = true) (h : engineTurn s = .next t) :
    t.busy = false ∧ t.errcode = completionCode t.pend := by
  have hpend := engineTurn_pend h
  rw [engineTurn_busy hb] at h
  cases hd : decode s.pend with
  | ok i =>
    obtain ⟨u, hu, hbusy, -, hcode⟩ := exec_completedOk (wf_of_decode_ok hd) s
    rw [engineStep_ok hd, hu] at h
    cases h
    exact ⟨hbusy, by rw [hcode, hpend, completionCode_of_ok hd]⟩
  | error e =>
    rw [engineStep_error hd] at h
    cases h
    exact ⟨rfl, (completionCode_of_error hd).symm⟩

/-! STATUS and PEND (20_memory.md R63; 60_exceptions.md R201, R202). -/

/-- Coherence is kept where BUSY, ERRCODE and PEND stay and DONE is not set. -/
theorem State.Coherent.congr {s t : State} (h : s.Coherent) (hb : t.busy = s.busy)
    (hd : t.done = true → s.done = true) (he : t.errcode = s.errcode) (hp : t.pend = s.pend) : t.Coherent := by
  obtain ⟨hbusy, hdone, hidle, hbound⟩ := h
  refine ⟨fun h => ?_, fun h => ?_, fun h => ?_, he ▸ hbound⟩
  · exact Bool.eq_false_iff.mpr fun hdt => Bool.eq_false_iff.mp (hbusy (hb ▸ h)) (hd hdt)
  · rw [he, hp]; exact hdone (hd h)
  · rw [he, hp]; exact hidle (hb ▸ h)

/-- An idle state whose ERRCODE is the code of PEND is coherent, DONE set or not. -/
theorem coherent_of_completionCode {t : State} (hb : t.busy = false) (hc : t.errcode = completionCode t.pend) :
    t.Coherent :=
  ⟨fun h => absurd (hb.symm.trans h) Bool.false_ne_true, fun _ => hc, fun _ => .inl hc, hc ▸ completionCode_le t.pend⟩

theorem applyReset_coherent (s : State) : s.applyReset.Coherent :=
  resetIsCoherent.congr rfl id rfl rfl

/-- An accepted command is running, so that DONE = 0 and the old ERRCODE say nothing of it (20_memory.md R63). -/
theorem acceptCommand_coherent {s : State} (h : s.Coherent) (v : Word) : (s.acceptCommand v).Coherent :=
  ⟨fun _ => rfl, fun hd => absurd hd Bool.false_ne_true, fun hb => absurd hb.symm Bool.false_ne_true, h.codeBound⟩

theorem HostEffect.coherent {h : HostAction} {s t : State} (he : HostEffect h s t) (hs : s.Coherent) :
    t.Coherent := by
  cases he with
  | unchanged => exact hs
  | flagged | setIe | stored => exact hs.congr rfl id rfl rfl
  | softReset => exact applyReset_coherent s
  | wroteStatus v => exact hs.congr rfl (fun hd => (Bool.and_eq_true_iff.mp hd).1) rfl rfl
  | launched _ v => exact acceptCommand_coherent hs v

theorem engineTurn_coherent {s t : State} (hs : s.Coherent) (h : engineTurn s = .next t) : t.Coherent := by
  cases hb : s.busy with
  | false =>
    rw [engineTurn_idle hb] at h
    cases h
    exact hs
  | true =>
    obtain ⟨hbusy, hcode⟩ := engineTurn_errcode hb h
    exact coherent_of_completionCode hbusy hcode

theorem takeTurn_coherent {x : Turn} {s t : State} (hs : s.Coherent) (h : takeTurn x s = .next t) : t.Coherent := by
  cases x with
  | engine => exact engineTurn_coherent hs h
  | takeIrq => cases h; exact hs
  | rstN => cases h; exact applyReset_coherent s
  | host act =>
    cases h
    exact ((hostAccess_effect act s).coherent hs).congr rfl id rfl rfl

/-- Settles O42: the engine's turn and every other turn keep coherence, and consuming the turn does not touch it. -/
theorem stepKeepsStatusCoherent : Obligations.StepKeepsStatusCoherent := by
  unfold Obligations.StepKeepsStatusCoherent
  intro s t hs hstep
  cases hts : s.turns with
  | nil => exact engineTurn_coherent hs (step_nil hts ▸ hstep)
  | cons x ts =>
    rw [step_cons hts] at hstep
    exact takeTurn_coherent (s := { s with turns := ts }) (hs.congr rfl id rfl rfl) hstep

/-! The data window (20_memory.md R53, R61, R62). -/

/-- Word w of a string as a quotient (00_scope.md R15). -/
theorem wordAt_eq_ofNat (b : Bytes32) (w : Fin 8) : wordAt b w = BitVec.ofNat 32 (b.toNat / 2 ^ (32 * w.val)) :=
  BitVec.eq_of_toNat_eq (by rw [wordAt_toNat, BitVec.toNat_ofNat])

/-- Settles O49: the offset names word w of D[i], which the read returns and the write replaces. -/
theorem dataWindowIdleAccess : Obligations.DataWindowIdleAccess := by
  unfold Obligations.DataWindowIdleAccess
  intro s off v i w hb hoff
  have ht : (⟨off, 4, 0xF⟩ : Access).target? = some (.data i w) := by
    refine (wordAccess_target? off (by omega)).trans ?_
    rw [hoff, targetAt?_data]
  refine ⟨by rw [hostRead_data_idle ht hb, wordAt_eq_ofNat], _, hostWrite_data_idle ht hb v, rfl,
    fun j hj => setReg_reg_ne s i j _ hj, fun b hlt => ?_⟩
  rw [setReg_reg_self, getLsbD_setWordAt _ _ _ hlt]

/-- Settles O50: the access reaches a data word, and a busy engine answers both kinds alike. -/
theorem dataWindowBusyAccess : Obligations.DataWindowBusyAccess := by
  unfold Obligations.DataWindowBusyAccess
  intro s off v hb hlo hhi hal
  obtain ⟨i, w, hmap⟩ := exists_targetAt?_data hlo (by omega) hal
  have ht : (⟨off, 4, 0xF⟩ : Access).target? = some (.data i w) := (wordAccess_target? off hal).trans hmap
  exact ⟨hostRead_data_busy ht hb, hostWrite_data_busy ht hb v⟩

/-! Accesses without effect (20_memory.md R54–R57, R64). -/

/-- Settles O51: such an access reaches nothing. -/
theorem badAccessIsBusErrorWithoutEffect : Obligations.BadAccessIsBusErrorWithoutEffect := by
  unfold Obligations.BadAccessIsBusErrorWithoutEffect
  intro s a v hbad
  have ht := target?_eq_none_of_bad hbad
  have hread : hostRead a s = (.busError, s) := hostRead_of_none ht
  exact ⟨hread, by rw [hread]; rfl, hostWrite_of_none ht v⟩

/-- Settles O52: a read that is not without effect is flagged, and then it reaches a data word while busy. -/
theorem readsChangeAtMostAccerr : Obligations.ReadsChangeAtMostAccerr := by
  unfold Obligations.ReadsChangeAtMostAccerr
  intro s t a r hread
  obtain rfl : (hostRead a s).2 = t := by rw [hread]
  obtain h | ⟨h, hb, i, w, ht⟩ := hostRead_snd a s
  · rw [h]
    exact ⟨rfl, fun hne => absurd rfl hne⟩
  · obtain ⟨⟨hsize, -, -⟩, hmap⟩ := target?_eq_some_iff.mp ht
    obtain ⟨hlo, hhi⟩ := range_of_targetAt?_data hmap
    rw [h]
    exact ⟨rfl, fun _ => ⟨hb, rfl, hsize, hlo, hhi⟩⟩

/-! A running command (20_memory.md R62, R63, R69). -/

/-- Settles O53: of the effects of a host access on a busy engine only the soft reset touches D, PEND or BUSY. -/
theorem runningCommandIsFrozen : Obligations.RunningCommandIsFrozen := by
  unfold Obligations.RunningCommandIsFrozen
  intro s h hb hnr
  have he := hostAccess_effect h s
  simp only [hostTurn]
  generalize (hostAccess h s).2 = t at he ⊢
  cases he with
  | unchanged | flagged | setIe | wroteStatus => exact ⟨rfl, rfl, hb⟩
  | softReset hr => exact absurd hr hnr
  | launched hidle | stored hidle => exact absurd (hidle.symm.trans hb) Bool.false_ne_true

/-! What a busy window hides (20_memory.md R62; 60_exceptions.md R218). -/

/-- The two states are equal, or busy and different in the data registers alone: what a host cannot tell apart before
the engine's step. -/
inductive AlikeWhileBusy (s : State) : State → Prop where
  | same : AlikeWhileBusy s s
  | busy (hb : s.busy = true) (d : Vector Bytes32 16) : AlikeWhileBusy s { s with d := d }

theorem AlikeWhileBusy.resp_eq {s s' : State} (h : AlikeWhileBusy s s') : s.resp = s'.resp := by
  cases h <;> rfl

theorem AlikeWhileBusy.turns_eq {s s' : State} (h : AlikeWhileBusy s s') : s.turns = s'.turns := by
  cases h <;> rfl

theorem AlikeWhileBusy.withTurns {s s' : State} (h : AlikeWhileBusy s s') (ts : List Turn) :
    AlikeWhileBusy { s with turns := ts } { s' with turns := ts } := by
  cases h with
  | same => exact .same
  | busy hb d => exact .busy (s := { s with turns := ts }) hb d

theorem AlikeWhileBusy.withResp {s s' : State} (h : AlikeWhileBusy s s') (r : Option Response) :
    AlikeWhileBusy { s with resp := r } { s' with resp := r } := by
  cases h with
  | same => exact .same
  | busy hb d => exact .busy (s := { s with resp := r }) hb d

/-- A reset clears the data registers, so alike states are equal after it (70_reset_and_hazards.md R231). -/
theorem AlikeWhileBusy.applyReset {s s' : State} (h : AlikeWhileBusy s s') :
    AlikeWhileBusy s.applyReset s'.applyReset := by
  cases h <;> exact .same

/-- Two accesses have the same answer and leave alike states. -/
def AnsweredAlike (p q : Response × State) : Prop := p.1 = q.1 ∧ AlikeWhileBusy p.2 q.2

/-- The states differ in the data registers at most, and the answer is the same. -/
theorem AnsweredAlike.of_busy {s : State} (hb : s.busy = true) (r : Response) (d : Vector Bytes32 16) :
    AnsweredAlike (r, s) (r, { s with d := d }) :=
  ⟨rfl, .busy hb d⟩

theorem hostRead_alike {s : State} (hb : s.busy = true) (d : Vector Bytes32 16) (a : Access) :
    AnsweredAlike (hostRead a s) (hostRead a { s with d := d }) := by
  cases ht : a.target? with
  | none => rw [hostRead_of_none ht, hostRead_of_none ht]; exact .of_busy hb _ d
  | some x =>
    cases x with
    | id | version | ctrl | status | cmd => simp only [hostRead, ht]; exact .of_busy hb _ d
    | data i w =>
      rw [hostRead_data_busy ht hb, hostRead_data_busy (s := { s with d := d }) ht hb]
      exact .of_busy (s := s.flagAccess) hb _ d

theorem hostWrite_alike {s : State} (hb : s.busy = true) (d : Vector Bytes32 16) (a : Access) (v : Word) :
    AnsweredAlike (hostWrite a v s) (hostWrite a v { s with d := d }) := by
  cases ht : a.target? with
  | none => rw [hostWrite_of_none ht, hostWrite_of_none ht]; exact .of_busy hb _ d
  | some x =>
    cases x with
    | id | version => simp only [hostWrite, ht]; exact .of_busy hb _ d
    | status => simp only [hostWrite, ht]; exact .of_busy (s := s.writeStatus v) hb _ d
    | cmd =>
      rw [eq_of_target?_cmd ht, hostWrite_cmd, hostWrite_cmd, writeCmd_of_busy hb,
        writeCmd_of_busy (s := { s with d := d }) hb]
      exact .of_busy (s := s.flagAccess) hb _ d
    | data i w =>
      rw [hostWrite_data_busy ht hb, hostWrite_data_busy (s := { s with d := d }) ht hb]
      exact .of_busy (s := s.flagAccess) hb _ d
    | ctrl =>
      rw [eq_of_target?_ctrl ht, hostWrite_ctrl, hostWrite_ctrl]
      cases hv : v.getLsbD 0 with
      | false =>
        rw [writeCtrl_of_false _ hv, writeCtrl_of_false _ hv]
        exact .of_busy (s := { s with ie := v.getLsbD 1 }) hb _ d
      | true =>
        rw [writeCtrl_of_true _ hv, writeCtrl_of_true _ hv]
        exact ⟨rfl, .same⟩

theorem hostAccess_alike {s s' : State} (h : AlikeWhileBusy s s') (act : HostAction) :
    AnsweredAlike (hostAccess act s) (hostAccess act s') := by
  cases h with
  | same => exact ⟨rfl, .same⟩
  | busy hb d =>
    cases act with
    | read a => exact hostRead_alike hb d a
    | write a v => exact hostWrite_alike hb d a v

theorem hostTurn_alike {s s' : State} (h : AlikeWhileBusy s s') (act : HostAction) :
    AlikeWhileBusy (hostTurn act s) (hostTurn act s') := by
  obtain ⟨hresp, hstate⟩ := hostAccess_alike h act
  rw [hostTurn, hostTurn, hresp]
  exact hstate.withResp _

/-- A turn that is not the engine's keeps alike states alike, and keeps the schedule. -/
theorem takeTurn_alike {s s' : State} (h : AlikeWhileBusy s s') {x : Turn} (hx : x ≠ .engine) :
    ∃ t t', takeTurn x s = .next t ∧ takeTurn x s' = .next t' ∧ AlikeWhileBusy t t' ∧ t.turns = s.turns := by
  cases x with
  | engine => exact absurd rfl hx
  | takeIrq => exact ⟨s, s', rfl, rfl, h, rfl⟩
  | rstN => exact ⟨_, _, rfl, rfl, h.applyReset, rfl⟩
  | host act => exact ⟨_, _, rfl, rfl, hostTurn_alike h act, (hostAccess_effect act s).turns_eq⟩

theorem run_succ_of_step {s u : State} (n : Nat) (h : step s = .next u) : core.run (n + 1) s = core.run n u := by
  simp only [Host.Core.run, core, h]

/-- A whole schedule without the engine's turn keeps alike states alike. -/
theorem run_alike {ts : List Turn} (hne : Turn.engine ∉ ts) {s s' : State} (h : AlikeWhileBusy s s')
    (hts : s.turns = ts) :
    ∃ t t', core.run ts.length s = .next t ∧ core.run ts.length s' = .next t' ∧ AlikeWhileBusy t t' := by
  induction ts generalizing s s' with
  | nil => exact ⟨s, s', rfl, rfl, h⟩
  | cons x ts ih =>
    rw [List.mem_cons, not_or] at hne
    obtain ⟨hx, hrest⟩ := hne
    obtain ⟨u, u', hu, hu', hal, hturns⟩ := takeTurn_alike (h.withTurns ts) (Ne.symm hx)
    rw [List.length_cons, run_succ_of_step _ ((step_cons hts).trans hu),
      run_succ_of_step _ ((step_cons (h.turns_eq ▸ hts)).trans hu')]
    exact ih hrest hal hturns

/-- Settles O54: the two runs stay alike, and alike states hold the same answer. -/
theorem busyWindowHidesRegisters : Obligations.BusyWindowHidesRegisters := by
  unfold Obligations.BusyWindowHidesRegisters
  intro ts s d' hb hne
  obtain ⟨t, t', ht, ht', hal⟩ := run_alike hne (.busy (s := { s with turns := ts }) hb d') rfl
  exact ⟨t, t', ht, ht', hal.resp_eq⟩

/-! The control registers (10_state.md R28, R30, R31; 20_memory.md R58, R59, R63). -/

/-- The CTRL word is twice IE (10_state.md R28). -/
theorem ctrlWord_eq_ofNat (s : State) : s.ctrlWord = BitVec.ofNat 32 (2 * s.ie.toNat) := by
  rw [State.ctrlWord]
  cases s.ie <;> rfl

/-- The STATUS word as the sum of its fields in their places (10_state.md R30). -/
theorem statusWord_eq_ofNat (s : State) : s.statusWord = BitVec.ofNat 32 (s.busy.toNat + 2 * s.done.toNat +
    4 * s.err.toNat + 8 * s.accerr.toNat + 256 * s.errcode.toNat) := by
  have fields : ∀ (b d e a : Bool) (c : BitVec 4),
      0#20 ++ (c ++ (0#4 ++ (BitVec.ofBool a ++ (BitVec.ofBool e ++ (BitVec.ofBool d ++ BitVec.ofBool b))))) =
        BitVec.ofNat 32 (b.toNat + 2 * d.toNat + 4 * e.toNat + 8 * a.toNat + 256 * c.toNat) := by decide
  exact fields s.busy s.done s.err s.accerr s.errcode

/-- Settles O45: each read returns its word, and CTRL and STATUS are the numbers their fields make. -/
theorem controlReadsReturnTheirWords : Obligations.ControlReadsReturnTheirWords := by
  unfold Obligations.ControlReadsReturnTheirWords
  intro s
  refine ⟨rfl, rfl, ?_, ?_, rfl⟩
  · rw [hostRead_ctrl, ctrlWord_eq_ofNat]
  · rw [← statusWord_eq_ofNat]
    rfl

/-- A flag that a STATUS write clears, as a choice by the written bit (10_state.md R30). -/
theorem w1c_eq_ite (flag bit : Bool) : (flag && !bit) = if bit then false else flag := by
  cases bit <;> simp

/-- Settles O47: STATUS has three W1C bits; ID and VERSION have none. -/
theorem statusWriteClearsOnlyW1cBits : Obligations.StatusWriteClearsOnlyW1cBits := by
  unfold Obligations.StatusWriteClearsOnlyW1cBits
  refine fun s v => ⟨?_, rfl, rfl⟩
  rw [hostWrite_status, State.writeStatus, w1c_eq_ite, w1c_eq_ite, w1c_eq_ite]

/-- Settles O48: BUSY decides between the accepted and the dropped write. -/
theorem cmdWriteLaunchesOrFlags : Obligations.CmdWriteLaunchesOrFlags := by
  unfold Obligations.CmdWriteLaunchesOrFlags
  refine fun s v => ⟨fun hb => ?_, fun hb => ?_⟩
  · rw [hostWrite_cmd, writeCmd_of_idle hb, State.acceptCommand]
  · rw [hostWrite_cmd, writeCmd_of_busy hb, State.flagAccess]

end Sys2Proof.Machine
end

section
/-! PROOFS. The statements about the encoding, the assembler text and the host's sequences of turns (30_encoding.md),
after the facts they rest on: the word of a command by its opcode and fields, the text of a command by its pieces, and
what the turns of WRD, RDD and EXEC do one by one. -/

namespace Sys2Proof

/-! The encoder through the decoder's table (30_encoding.md R81, R84, R85, R91). -/

/-- The three fields stand below the bits that a format reserves (30_encoding.md R82, R87). -/
def Format.Fits (f : Format) (rd ra rb : Fin 16) : Prop :=
  rb.val * 2 ^ 16 + ra.val * 2 ^ 12 + rd.val * 2 ^ 8 < 2 ^ f.top

/-- Every command is its operation built from three fields, 0 where its format has none. -/
theorem Instr.exists_build (i : Instr) :
    ∃ rd ra rb, i.op.format.Fits rd ra rb ∧ i = i.op.build rd ra rb := by
  cases i with
  | fadd rd ra rb | fsub rd ra rb | fmul rd ra rb | padd rd ra rb | pmadd rd ra rb | ladder rd ra rb
  | deriveshared rd ra rb =>
    exact ⟨rd, ra, rb, by simp only [Format.Fits, Instr.op, Op.format, Format.top]; omega, rfl⟩
  | finv rd ra | fcanon rd ra | pdbl rd ra | ptopre rd ra | ptou rd ra | pbasemul rd ra | hsalsa rd ra | clamp rd ra
  | derivepub rd ra =>
    exact ⟨rd, ra, 0, by simp only [Format.Fits, Instr.op, Op.format, Format.top]; omega, rfl⟩
  | pldi rd | pldb rd | keygen rd =>
    exact ⟨rd, 0, 0, by simp only [Format.Fits, Instr.op, Op.format, Format.top]; omega, rfl⟩

/-- Fields that fit a format without RB, or without RA, have 0 there (30_encoding.md R87). -/
theorem Format.Fits.rb_eq_zero {f : Format} {rd ra rb : Fin 16} (h : f.Fits rd ra rb) (hf : f.top ≤ 16) : rb = 0 := by
  have := Nat.pow_le_pow_right (n := 2) (by decide) hf
  unfold Format.Fits at h
  omega

theorem Format.Fits.ra_eq_zero {f : Format} {rd ra rb : Fin 16} (h : f.Fits rd ra rb) (hf : f.top ≤ 12) : ra = 0 := by
  have := Nat.pow_le_pow_right (n := 2) (by decide) hf
  unfold Format.Fits at h
  omega

/-- The word of a built command packs its three fields: those its format drops are 0 (30_encoding.md R91). -/
theorem encode_build {op : Op} {rd ra rb : Fin 16} (h : op.format.Fits rd ra rb) :
    encode (op.build rd ra rb) = packWord op rd ra rb := by
  cases op with
  | fadd | fsub | fmul | padd | pmadd | ladder | deriveshared => rfl
  | finv | fcanon | pdbl | ptopre | ptou | pbasemul | hsalsa | clamp | derivepub =>
    rw [h.rb_eq_zero (by decide)]; rfl
  | pldi | pldb | keygen => rw [h.rb_eq_zero (by decide), h.ra_eq_zero (by decide)]; rfl

/-- The fields of a packed word are the fields it was packed from (30_encoding.md R81). -/
theorem fields_packWord (op : Op) (rd ra rb : Fin 16) :
    rdField (packWord op rd ra rb) = rd ∧ raField (packWord op rd ra rb) = ra ∧
      rbField (packWord op rd ra rb) = rb := by
  have hop := op.code.isLt
  refine ⟨?_, ?_, ?_⟩ <;> apply Fin.ext <;>
    simp only [rdField, raField, rbField, indexField_val, packWord_toNat] <;> omega

/-- A word with nothing in RSV packs its own fields (30_encoding.md R81). -/
theorem packWord_fields {w : Word} {op : Op} (hop : op.code = opField w) (hw : w.toNat < 2 ^ 20) :
    packWord op (rdField w) (raField w) (rbField w) = w := by
  apply BitVec.eq_of_toNat_eq
  rw [packWord_toNat, hop, opField_toNat, rdField, raField, rbField, indexField_val, indexField_val, indexField_val]
  omega

/-- Settles O33: the word packs the fields that the command is built from, and the decoder builds with them again. -/
theorem decodeGivesBackEncoded : Obligations.DecodeGivesBackEncoded := by
  unfold Obligations.DecodeGivesBackEncoded
  intro i hwf
  obtain ⟨rd, ra, rb, hfit, hi⟩ := i.exists_build
  generalize i.op = op at hfit hi
  subst hi
  obtain ⟨hcode, hrsv⟩ := Laws.RowMatch.packWord_matches op rd ra rb hfit
  obtain ⟨hrd, hra, hrb⟩ := fields_packWord op rd ra rb
  rw [encode_build hfit, decode_of_legal (hcode ▸ opOf?_code op) ((reserved_eq_zero _ _).mp hrsv), hrd, hra, hrb]
  rw [hrd, hra, hrb, ← Machine.build_wf, hwf]

/-- What a word that decodes is: an assigned opcode, nothing above the format's fields, and the command of the fields
(30_encoding.md R85). -/
theorem fields_of_decode_ok {w : Word} {i : Instr} (h : decode w = .ok i) :
    ∃ op : Op, op.code = opField w ∧ w.toNat / 2 ^ op.format.top = 0 ∧
      i = op.build (rdField w) (raField w) (rbField w) := by
  cases hop : opOf? (opField w) with
  | none => simp [decode_of_no_op hop] at h
  | some op =>
    by_cases hr : w.toNat / 2 ^ op.format.top = 0
    · cases hp : op.format.pointsLegal (rdField w) (raField w) (rbField w) with
      | false => simp [decode_of_bad_point hop hr hp] at h
      | true =>
        rw [decode_of_legal hop hr hp, Except.ok.injEq] at h
        exact ⟨op, code_of_opOf? hop, hr, h.symm⟩
    · simp [decode_of_reserved hop hr] at h

/-- Settles O34: below the reserved bits stand only the opcode and the three fields. -/
theorem decodedWordIsItsEncoding : Obligations.DecodedWordIsItsEncoding := by
  unfold Obligations.DecodedWordIsItsEncoding
  intro w i h
  refine ⟨?_, Machine.wf_of_decode_ok h⟩
  obtain ⟨op, hcode, hrsv, rfl⟩ := fields_of_decode_ok h
  have htop : 2 ^ op.format.top ≤ 2 ^ 20 := Nat.pow_le_pow_right (by decide) (by cases op <;> decide)
  have hlt : w.toNat < 2 ^ op.format.top := (Nat.div_eq_zero_iff_lt (Nat.two_pow_pos _)).mp hrsv
  have hpack := packWord_fields hcode (hlt.trans_le htop)
  have hfit : op.format.Fits (rdField w) (raField w) (rbField w) := by
    have hsum := packWord_toNat op (rdField w) (raField w) (rbField w)
    rw [hpack] at hsum
    unfold Format.Fits
    omega
  rw [encode_build hfit, hpack]

/-- Settles O36: each of the nine words is evaluated. -/
theorem specWordsDecode : Obligations.SpecWordsDecode := by
  unfold Obligations.SpecWordsDecode
  decide

end Sys2Proof

namespace Sys2Proof.Machine

/-! The assembler on the text that the disassembler writes (30_encoding.md R89). -/

/-- The character starts no comment and is no capital letter: every character of the text. -/
def isWritten (c : Char) : Bool := c != ';' && lowerChar c == c

/-- The character is no blank and no comma either: every character of a mnemonic or an operand. -/
def isSolid (c : Char) : Bool := isWritten c && !isBlank c && c != ','

section
variable {c : Char} (h : isSolid c = true)
include h

theorem isWritten_of_isSolid : isWritten c = true := by
  simp only [isSolid, Bool.and_eq_true] at h
  exact h.1.1

theorem isBlank_of_isSolid : isBlank c = false := by
  simp only [isSolid, Bool.and_eq_true, Bool.not_eq_true'] at h
  exact h.1.2

theorem ne_comma_of_isSolid : c ≠ ',' := by
  simp only [isSolid, Bool.and_eq_true, bne_iff_ne] at h
  exact h.2

end

theorem opName_solid (op : Op) : ∀ c ∈ opName op, isSolid c = true := by
  rw [← List.all_eq_true]
  cases op <;> decide

theorem operandText_solid (o : AsmOperand) : ∀ c ∈ operandText o, isSolid c = true := by
  rw [← List.all_eq_true]
  cases o with
  | data n | point n => revert n; decide

theorem opName_ne_nil (op : Op) : opName op ≠ [] := by
  cases op <;> exact List.cons_ne_nil _ _

theorem operandText_ne_nil (o : AsmOperand) : operandText o ≠ [] := by
  cases o <;> exact List.cons_ne_nil _ _

theorem asmOperands_ne_nil (i : Instr) : asmOperands i ≠ [] := by
  cases i <;> exact List.cons_ne_nil _ _

theorem operandsText_cons (o : AsmOperand) {os : List AsmOperand} (h : os ≠ []) :
    operandsText (o :: os) = operandText o ++ ',' :: ' ' :: operandsText os := by
  cases os with
  | nil => exact absurd rfl h
  | cons => simp [operandsText]

/-- Only the comma and the blanks between the pieces are not solid. -/
theorem operandsText_written (os : List AsmOperand) : ∀ c ∈ operandsText os, isWritten c = true := by
  induction os using operandsText.induct with
  | case1 => exact List.forall_mem_nil _
  | case2 o => exact fun c hc => isWritten_of_isSolid (operandText_solid o c hc)
  | case3 o os hne ih =>
    rw [operandsText_cons o hne, List.forall_mem_append, List.forall_mem_cons, List.forall_mem_cons]
    exact ⟨fun c hc => isWritten_of_isSolid (operandText_solid o c hc), rfl, rfl, ih⟩

theorem disassemble_written (i : Instr) : ∀ c ∈ disassemble i, isWritten c = true := by
  rw [disassemble, List.forall_mem_append, List.forall_mem_append, List.forall_mem_singleton]
  exact ⟨⟨fun c hc => isWritten_of_isSolid (opName_solid _ c hc), rfl⟩, operandsText_written _⟩

/-- The text holds no comment and no capital letter. -/
theorem stripped_disassemble (i : Instr) :
    ((disassemble i).takeWhile (· != ';')).map lowerChar = disassemble i := by
  have hw := disassemble_written i
  simp only [isWritten, Bool.and_eq_true, beq_iff_eq] at hw
  rw [List.takeWhile_eq_self_iff.mpr fun c hc => (hw c hc).1]
  exact (List.map_congr_left fun c hc => (hw c hc).2).trans (List.map_id _)

/-! Blanks. -/

theorem dropWhile_isBlank_append {l : List Char} (hl : l ≠ []) (hs : ∀ c ∈ l, isSolid c = true) (m : List Char) :
    (l ++ m).dropWhile isBlank = l ++ m := by
  cases l with
  | nil => exact absurd rfl hl
  | cons c l => exact List.dropWhile_cons_of_neg (by simp [isBlank_of_isSolid (hs c List.mem_cons_self)])

/-- Text that starts and ends with a solid piece has no blanks to trim. -/
theorem trimBlanks_of_solid_ends {text l m n k : List Char} (hstart : text = l ++ m) (hend : text = n ++ k)
    (hl : l ≠ []) (hls : ∀ c ∈ l, isSolid c = true) (hk : k ≠ []) (hks : ∀ c ∈ k, isSolid c = true) :
    trimBlanks text = text := by
  have hfront : text.dropWhile isBlank = text := by rw [hstart, dropWhile_isBlank_append hl hls]
  have hback : text.reverse.dropWhile isBlank = text.reverse := by
    rw [hend, List.reverse_append, dropWhile_isBlank_append (by simpa using hk) (by simpa using hks)]
  rw [trimBlanks, hfront, hback, List.reverse_reverse]

theorem operandsText_ends {os : List AsmOperand} (hos : os ≠ []) : ∃ n o, operandsText os = n ++ operandText o := by
  induction os using operandsText.induct with
  | case1 => exact absurd rfl hos
  | case2 o => exact ⟨[], o, rfl⟩
  | case3 o os hne ih =>
    obtain ⟨n, p, hp⟩ := ih hne
    exact ⟨operandText o ++ ',' :: ' ' :: n, p, by simp [operandsText_cons o hne, hp]⟩

theorem trimBlanks_disassemble (i : Instr) : trimBlanks (disassemble i) = disassemble i := by
  obtain ⟨n, o, hn⟩ := operandsText_ends (asmOperands_ne_nil i)
  exact trimBlanks_of_solid_ends (n := opName i.op ++ [' '] ++ n) (List.append_assoc ..)
    (by rw [disassemble, hn, List.append_assoc _ n])
    (opName_ne_nil _) (opName_solid _) (operandText_ne_nil o) (operandText_solid o)

/-- An operand is read back from its text and the blank before it. -/
theorem parseOperand_blank_operandText (o : AsmOperand) :
    parseOperand (trimBlanks (' ' :: operandText o)) = some o := by
  cases o with
  | data n | point n => revert n; decide

/-! The mnemonic, up to the first blank. -/

theorem takeWhile_opName (op : Op) (rest : List Char) :
    (opName op ++ [' '] ++ rest).takeWhile (fun c => !isBlank c) = opName op := by
  rw [List.append_assoc,
    List.takeWhile_append_of_pos fun c hc => by rw [isBlank_of_isSolid (opName_solid op c hc), Bool.not_false]]
  exact List.append_nil _

theorem dropWhile_opName (op : Op) (rest : List Char) :
    (opName op ++ [' '] ++ rest).dropWhile (fun c => !isBlank c) = ' ' :: rest := by
  rw [List.append_assoc,
    List.dropWhile_append_of_pos fun c hc => by rw [isBlank_of_isSolid (opName_solid op c hc), Bool.not_false]]
  rfl

/-- No two operations share a mnemonic (30_encoding.md R84). -/
theorem find_opName (op : Op) : Op.all.find? (fun o => opName o == opName op) = some op := by
  cases op <;> decide

/-! The operands, between commas. -/

/-- Text without a comma goes to the current piece. -/
theorem splitCommas_append {l : List Char} (hl : ∀ c ∈ l, c ≠ ',') (piece rest : List Char) :
    splitCommas piece (l ++ rest) = splitCommas (l.reverse ++ piece) rest := by
  induction l generalizing piece with
  | nil => rfl
  | cons c l ih =>
    obtain ⟨hc, hl⟩ := List.forall_mem_cons.mp hl
    rw [List.cons_append, splitCommas, if_neg (by simpa using hc), ih hl, List.reverse_cons, List.append_assoc,
      List.singleton_append]

theorem splitCommas_last {l : List Char} (hl : ∀ c ∈ l, c ≠ ',') : splitCommas [] l = [l] := by
  simpa [splitCommas] using splitCommas_append hl [] []

theorem splitCommas_comma {l : List Char} (hl : ∀ c ∈ l, c ≠ ',') (rest : List Char) :
    splitCommas [] (l ++ ',' :: rest) = l :: splitCommas [] rest := by
  simpa [splitCommas] using splitCommas_append hl [] (',' :: rest)

theorem blank_operandText_no_comma (o : AsmOperand) : ∀ c ∈ ' ' :: operandText o, c ≠ ',' :=
  List.forall_mem_cons.mpr ⟨by decide, fun c hc => ne_comma_of_isSolid (operandText_solid o c hc)⟩

/-- The operands are read back from their text and the blank before it. -/
theorem parseOperands_operandsText {os : List AsmOperand} (hos : os ≠ []) :
    parseOperands (splitCommas [] (' ' :: operandsText os)) = some os := by
  induction os using operandsText.induct with
  | case1 => exact absurd rfl hos
  | case2 o =>
    rw [operandsText, splitCommas_last (blank_operandText_no_comma o)]
    simp [parseOperands, parseOperand_blank_operandText]
  | case3 o os hne ih =>
    rw [operandsText_cons o hne, ← List.cons_append, splitCommas_comma (blank_operandText_no_comma o)]
    have ih := ih hne
    unfold parseOperands at ih ⊢
    simp [parseOperand_blank_operandText, ih]

/-- A command is its operation built with its operands' numbers. -/
theorem build_asmOperands (i : Instr) :
    i.op.build (operandNumber (asmOperands i) 0) (operandNumber (asmOperands i) 1)
      (operandNumber (asmOperands i) 2) = i := by
  cases i <;> rfl

/-- The parser reads a well-formed command back from its text. -/
theorem parseLine_disassemble {i : Instr} (hwf : i.wf = true) : parseLine (disassemble i) = some i := by
  unfold parseLine
  rw [stripped_disassemble, trimBlanks_disassemble]
  simp only [disassemble, takeWhile_opName, dropWhile_opName, find_opName,
    parseOperands_operandsText (asmOperands_ne_nil i), build_asmOperands, hwf, and_self, if_true]

/-- Settles O37: the assembler encodes what the parser reads back. -/
theorem assemblerReadsBackItsText : Obligations.AssemblerReadsBackItsText := by
  unfold Obligations.AssemblerReadsBackItsText
  intro i hwf
  rw [assemble, parseLine_disassemble hwf, Option.map_some]

/-! WRD and RDD: the host's accesses to the words of a register (30_encoding.md R90; 20_memory.md R53, R61). -/

theorem dataOffset_target? (n : DReg) (w : Fin 8) : (wordAccess (dataOffset n w)).target? = some (.data n w) := by
  have hoff : (dataOffset n w).toNat = 0x100 + 32 * n.val + 4 * w.val := by
    rw [dataOffset, BitVec.toNat_ofNat, Nat.mod_eq_of_lt (by omega)]
  rw [wordAccess_target? _ (by omega), hoff, targetAt?_data]

/-- A write of an idle data word replaces the word and is answered as taken (20_memory.md R61). -/
theorem takeTurn_writeWord {s : State} (h : s.busy = false) (n : DReg) (w : Fin 8) (v : Word) :
    takeTurn (writeTurn (dataOffset n w) v) s =
      .next { s.setReg n (setWordAt (s.reg n) w v) with resp := some .done } := by
  simp [writeTurn, takeTurn, hostTurn, hostAccess, hostWrite_data_idle (dataOffset_target? n w) h]

/-- The turn that is next is taken, and the run goes on with the others. -/
theorem run_cons {s u : State} {x : Turn} {ts : List Turn} (n : Nat)
    (h : takeTurn x { s with turns := ts } = .next u) :
    core.run (n + 1) { s with turns := x :: ts } = core.run n u :=
  run_succ_of_step n ((step_cons rfl).trans h)

/-- What word writes of `b` at `ws` leave: those words of D[n] are b's, and all else in the registers is as before. -/
structure WordsWritten (n : DReg) (b : Bytes32) (ws : List (Fin 8)) (s t : State) : Prop where
  idle : t.busy = false
  word : ∀ w, wordAt (t.reg n) w = if w ∈ ws then wordAt b w else wordAt (s.reg n) w
  others : ∀ j, j ≠ n → t.reg j = s.reg j

theorem run_writeWords (n : DReg) (b : Bytes32) (ws : List (Fin 8)) {s : State} (h : s.busy = false) :
    ∃ t, core.run ws.length { s with turns := ws.map fun w => writeTurn (dataOffset n w) (wordAt b w) } = .next t ∧
      WordsWritten n b ws s t := by
  induction ws generalizing s with
  | nil => exact ⟨_, rfl, h, fun w => (if_neg List.not_mem_nil).symm, fun _ _ => rfl⟩
  | cons w ws ih =>
    have hwrite := fun ts => takeTurn_writeWord (s := { s with turns := ts }) h n w (wordAt b w)
    rw [List.map_cons, List.length_cons, run_cons _ (hwrite _)]
    obtain ⟨t, hrun, hidle, hword, hothers⟩ :=
      ih (s := { s.setReg n (setWordAt (s.reg n) w (wordAt b w)) with resp := some .done }) h
    refine ⟨t, hrun, hidle, fun x => ?_, fun j hj => (hothers j hj).trans (setReg_reg_ne s n j _ hj)⟩
    rw [hword]
    have hreg : State.reg { s.setReg n (setWordAt (s.reg n) w (wordAt b w)) with resp := some .done } n =
        setWordAt (s.reg n) w (wordAt b w) := setReg_reg_self s n _
    rw [hreg]
    by_cases hx : x = w
    · subst hx
      simp
    · simp only [wordAt_setWordAt_ne _ _ _ _ hx, List.mem_cons, hx, false_or]

/-- The word reads of `ws`, up to the k-th: the answer is that word, and the registers are as before. -/
theorem run_readWords (n : DReg) {ws : List (Fin 8)} {k : Nat} {w : Fin 8} (hk : ws[k]? = some w) {s : State}
    (h : s.busy = false) :
    ∃ u, core.run (k + 1) { s with turns := ws.map fun w => readTurn (dataOffset n w) } = .next u ∧
      u.resp = some (.word (wordAt (s.reg n) w)) ∧ u.d = s.d := by
  induction ws generalizing s k with
  | nil => simp at hk
  | cons x ws ih =>
    have hread := fun ts => takeTurn_readWord (s := { s with turns := ts }) h n x
    rw [List.map_cons, run_cons k (hread _)]
    cases k with
    | zero =>
      obtain rfl : x = w := by simpa using hk
      exact ⟨_, rfl, rfl, rfl⟩
    | succ k => exact ih (k := k) hk (s := { s with resp := some (.word (wordAt (s.reg n) x)) }) h

/-- Settles O55: the eight words of WRD make the string whole, and the w-th read of RDD answers its w-th word. -/
theorem wordWritesAssembleTheRegister : Obligations.WordWritesAssembleTheRegister := by
  unfold Obligations.WordWritesAssembleTheRegister
  intro s n b w h
  obtain ⟨t, hrun, hidle, hword, hothers⟩ := run_writeWords n b (List.finRange 8) h
  have hreg : t.reg n = b := bytes_ext_words _ _ fun x => (hword x).trans (if_pos (List.mem_finRange x))
  obtain ⟨u, hread, hresp, hd⟩ := run_readWords n (ws := List.finRange 8) (k := w.val) (w := w) (by simp) hidle
  refine ⟨t, u, hrun, hreg, hothers, hread, ?_, hd⟩
  rw [hresp, hreg, wordAt_eq_ofNat]

/-! What a command does depends on the registers and the draw counter alone. -/

/-- The same ending from two states: the same values go to the same registers (60_exceptions.md R204, R210). -/
inductive EndsAlike (s s' : State) : Result → Result → Prop where
  | reg (i : DReg) (v : Bytes32) : EndsAlike s s' (finishReg i v s) (finishReg i v s')
  | point (n : PReg) (a b c e : Bytes32) : EndsAlike s s' (finishPoint n a b c e s) (finishPoint n a b c e s')
  | drawn (i : DReg) (v : Bytes32) : EndsAlike s s' (finishReg i v s.draw.2) (finishReg i v s'.draw.2)
  | invalid : EndsAlike s s' (finishInvalid s) (finishInvalid s')

/-- A command ends alike from states with the same registers and the same next draw: nothing else is read
(10_state.md R26, R36). -/
theorem exec_endsAlike (i : Instr) {s s' : State} (hd : s'.d = s.d) (hn : s'.draws = s.draws) :
    EndsAlike s s' (exec i s) (exec i s') := by
  obtain ⟨d, ie, busy, done, err, accerr, errcode, pend, draws, turns, resp⟩ := s'
  subst hd hn
  cases i with
  | fadd | fsub | fmul | finv | fcanon | ladder | hsalsa | clamp | derivepub | deriveshared => exact .reg _ _
  | keygen rd => exact .drawn rd _
  | pldi | pldb | padd | pmadd | pdbl | ptopre | ptou | pbasemul =>
    simp only [exec, execPldi, execPldb, execPadd, execPmadd, execPdbl, execPtopre, execPtou, execPbasemul]
    split <;> constructor

/-- The registers after a command do not depend on the flags, PEND, the schedule or the last answer. -/
theorem exec_d_eq {i : Instr} {s s' t t' : State} (ht : exec i s = .next t) (ht' : exec i s' = .next t')
    (hd : s'.d = s.d) (hn : s'.draws = s.draws) : t'.d = t.d := by
  have h := exec_endsAlike i hd hn
  rw [ht, ht'] at h
  cases h <;> simp only [completeOk_d, completeError_d, State.setPoint, State.draw, setReg_d, hd]

theorem Ending.turns_eq {s t : State} (h : Ending s (.next t)) : t.turns = s.turns := by
  cases h <;> rfl

/-! EXEC: the accepted word, the polls, the engine's step and the last read (30_encoding.md R90). -/

/-- A read of STATUS changes nothing but the answer (20_memory.md R58, R64). -/
theorem takeTurn_readStatus (s : State) :
    takeTurn (readTurn 0x00C) s = .next { s with resp := some (.word s.statusWord) } := rfl

/-- A CMD write while idle is accepted (20_memory.md R63). -/
theorem takeTurn_writeCmd {s : State} (h : s.busy = false) (v : Word) :
    takeTurn (writeTurn 0x010 v) s = .next { s.acceptCommand v with resp := some .done } := by
  rw [← writeCmd_of_idle h]
  rfl

/-- CHECK's test of the STATUS word is a test of ERRCODE (60_exceptions.md R201). -/
theorem checkOk_statusWord (s : State) : checkOk s.statusWord = (s.errcode == 0) := checkSucceeds_iff s

/-- Bit 0 of the STATUS word is BUSY (10_state.md R30). -/
theorem getLsbD_zero_statusWord (s : State) : s.statusWord.getLsbD 0 = s.busy := by
  rw [statusWord_eq_ofNat, BitVec.getLsbD_ofNat, Nat.testBit_zero]
  cases s.busy <;> simp <;> omega

/-- Any number of polls changes nothing but the answer. -/
theorem run_polls (k n : Nat) (ts : List Turn) (s : State) :
    ∃ r, core.run (k + n) { s with turns := List.replicate k (readTurn 0x00C) ++ ts } =
      core.run n { s with turns := ts, resp := r } := by
  induction k generalizing s with
  | zero => exact ⟨s.resp, by rw [Nat.zero_add]; rfl⟩
  | succ k ih =>
    obtain ⟨r, hr⟩ := ih { s with resp := some (.word s.statusWord) }
    refine ⟨r, Eq.trans ?_ hr⟩
    rw [Nat.add_right_comm]
    exact run_cons (s := s) _ (takeTurn_readStatus _)

/-- The engine's turn runs the command whose word was accepted, and leaves the schedule as it is. -/
theorem takeTurn_engine_encode {i : Instr} (hwf : i.wf = true) {s : State} (hb : s.busy = true)
    (hp : s.pend = encode i) :
    ∃ t, takeTurn .engine s = .next t ∧ exec i s = .next t ∧ CompletedOk t ∧ t.turns = s.turns := by
  obtain ⟨t, ht, hok⟩ := exec_completedOk hwf s
  have hdec : decode s.pend = .ok i := hp ▸ decodeGivesBackEncoded i hwf
  have hrun : engineTurn s = .next t := by rw [engineTurn_busy hb, engineStep_ok hdec, ht]
  exact ⟨t, hrun, ht, hok, Ending.turns_eq (ht ▸ exec_ending i s)⟩

/-- Settles O56: the polls leave the accepted command alone, the engine's step runs it, and what it writes does not
depend on the fields that launching and polling changed. -/
theorem execMacroRunsTheCommand : Obligations.ExecMacroRunsTheCommand := by
  unfold Obligations.ExecMacroRunsTheCommand
  intro s i polls hb hwf
  obtain ⟨u, hu, -⟩ := exec_completedOk hwf s
  have hlaunch := takeTurn_writeCmd (s := { s with turns := macroWait polls }) hb (encode i)
  obtain ⟨r, hpolls⟩ := run_polls polls 2 [.engine, readTurn 0x00C]
    { s.acceptCommand (encode i) with resp := some .done }
  obtain ⟨c, hengine, hc, ⟨hidle, -, hcode⟩, hturns⟩ := takeTurn_engine_encode hwf
    (s := { s.acceptCommand (encode i) with turns := [readTurn 0x00C], resp := r }) rfl rfl
  have hd : c.d = u.d := exec_d_eq hu hc rfl rfl
  have hstatus := (step_cons hturns).trans (takeTurn_readStatus { c with turns := [] })
  refine ⟨{ c with turns := [], resp := some (.word c.statusWord) }, u, c.statusWord, ?_, hu, hd, hidle, rfl,
    ?_, ?_⟩
  · calc core.run (polls + 3) { s with turns := macroExec i polls }
      _ = core.run (polls + 2) { s.acceptCommand (encode i) with turns := macroWait polls, resp := some .done } :=
        run_cons _ hlaunch
      _ = core.run 2 { s.acceptCommand (encode i) with turns := [.engine, readTurn 0x00C], resp := r } := hpolls
      _ = core.run 1 c := run_cons (s := { s.acceptCommand (encode i) with resp := r }) 1 hengine
      _ = .next _ := run_succ_of_step 0 hstatus
  · rw [checkOk_statusWord, hcode]
    rfl
  · rw [getLsbD_zero_statusWord, hidle]

end Sys2Proof.Machine
end

section
/-! PROOFS. The statements about the field commands (40_field.md), after the facts they rest on: which words are a
command without point fields, the field of the model as GF(p), and what a command that writes one field element leaves
in the registers. -/

namespace Sys2Proof.Machine

open Sys2Proof.Reference

/-! The words of a command without point fields (30_encoding.md R81, R82, R85). -/

/-- The decoder's field is the nibble of the word's value (30_encoding.md R83). -/
theorem indexField_eq_nibble (lo : Nat) (w : Word) : indexField lo w = nibble lo w.toNat :=
  Fin.ext (indexField_val lo w)

/-- The table's row of a word is that of its low byte (30_encoding.md R84). -/
theorem opOf?_opField {w : Word} {op : Op} (h : w.toNat % 256 = op.code.toNat) : opOf? (opField w) = some op := by
  have hcode : opField w = op.code := BitVec.eq_of_toNat_eq ((opField_toNat w).trans h)
  rw [hcode, opOf?_code]

/-- An operation whose format has `fields` fields, none of them a point register, is encoded with its opcode: the
decoder's third check always passes. -/
theorem encodedAs_build (op : Op) {fields : Nat} (htop : op.format.top = 8 + 4 * fields)
    (hpoints : ∀ rd ra rb, op.format.pointsLegal rd ra rb = true) : EncodedAs op.code.toNat fields op.build := by
  intro w hw
  have hop := opOf?_opField hw
  rw [← htop, ← indexField_eq_nibble, ← indexField_eq_nibble, ← indexField_eq_nibble]
  exact ⟨decode_of_reserved hop, fun hrsv => decode_of_legal hop hrsv (hpoints _ _ _)⟩

/-! The model's field elements as elements of GF(p) (00_scope.md R2, R13, R14). -/

/-- The element of GF(p) that a field element of the model stands for. -/
def toF (x : Fe) : F := (x.val : F)

/-- Reducing modulo p first does not change the element of GF(p). -/
theorem toF_eq_natCast {x : Fe} {n : Nat} (h : x.val = n % prime) : toF x = (n : F) := by
  rw [toF, h]
  exact ZMod.natCast_mod n P

/-- The model's p is the p of the statements (00_scope.md R2). -/
theorem prime_eq_P : prime = P := by decide

theorem toF_injective : Function.Injective toF := by
  intro x y h
  have hmod : x.val ≡ y.val [MOD P] := (ZMod.natCast_eq_natCast_iff _ _ _).mp h
  exact Fin.ext (hmod.eq_of_lt_of_lt x.isLt y.isLt)

@[simp] theorem toF_add (x y : Fe) : toF (x + y) = toF x + toF y := by
  rw [toF_eq_natCast (Fin.val_add x y), Nat.cast_add, toF, toF]

@[simp] theorem toF_mul (x y : Fe) : toF (x * y) = toF x * toF y := by
  rw [toF_eq_natCast (Fin.val_mul x y), Nat.cast_mul, toF, toF]

theorem fe_val_sub (x y : Fe) : (x - y).val = (P - y.val + x.val) % P := rfl

/-- The difference of field elements is the mathematical one modulo p, never negative (40_field.md R102). -/
theorem fe_intCast_val_sub (x y : Fe) : ((x - y).val : ℤ) = ((x.val : ℤ) - y.val) % P := by
  have hy : y.val ≤ P := y.isLt.le
  rw [fe_val_sub, Int.natCast_mod, Nat.cast_add, Nat.cast_sub hy, sub_add_eq_add_sub, add_sub_assoc,
    Int.add_emod_left]

@[simp] theorem toF_sub (x y : Fe) : toF (x - y) = toF x - toF y := by
  have hy : y.val ≤ P := y.isLt.le
  rw [toF_eq_natCast (fe_val_sub x y), Nat.cast_add, Nat.cast_sub hy, ZMod.natCast_self, zero_sub, neg_add_eq_sub,
    toF, toF]

/-- Subtracting y is adding any z that is −y modulo p. -/
theorem fe_sub_eq_add {x y z : Fe} (h : toF z + toF y = 0) : x - y = x + z :=
  toF_injective (by rw [toF_sub, toF_add, eq_neg_of_add_eq_zero_left h, sub_eq_add_neg])

@[simp] theorem toF_feOfNat (n : Nat) : toF (feOfNat n) = (n : F) := toF_eq_natCast (feOfNat_val n)

/-- Square-and-multiply computes the inverse of GF(p) (00_scope.md R14). -/
@[simp] theorem toF_feInv (x : Fe) : toF (feInv x) = inv (toF x) := by
  rw [toF_eq_natCast (feInv_val x), Nat.cast_pow, toF]
  rfl

theorem inv_of_zero : inv 0 = 0 := zero_pow (by decide)

/-- Fermat's little theorem (40_field.md R104). -/
theorem mul_inv_of_ne_zero {a : F} (h : a ≠ 0) : a * inv a = 1 := by
  have : Fact (Nat.Prime P) := ⟨prime_prime⟩
  rw [inv, ← pow_succ']
  exact ZMod.pow_card_sub_one_eq_one h

/-! A field read, and what a command leaves that writes one field element (10_state.md R25, R27; 60_exceptions.md
R210). -/

/-- A field read as an integer (00_scope.md R13). -/
theorem fieldReg_val (s : State) (i : DReg) : (s.fieldReg i).val = low255 s i % P := fe_val (s.reg i)

theorem toF_fieldReg (s : State) (i : DReg) : toF (s.fieldReg i) = readFe s i :=
  toF_eq_natCast (fe_val (s.reg i))

theorem readFe_eq_zero_iff (s : State) (i : DReg) : readFe s i = 0 ↔ low255 s i % P = 0 := by
  rw [readFe, ZMod.natCast_eq_zero_iff, Nat.dvd_iff_mod_eq_zero]

/-- The state after a command that writes the field element x to D[i]. -/
def State.afterField (s : State) (i : DReg) (x : Fe) : State := (s.setReg i (enc x)).completeOk

@[simp] theorem afterField_reg_self (s : State) (i : DReg) (x : Fe) : (s.afterField i x).reg i = enc x := by
  rw [State.afterField, completeOk_reg, setReg_reg_self]

@[simp] theorem fieldReg_afterField_self (s : State) (i : DReg) (x : Fe) : (s.afterField i x).fieldReg i = x := by
  rw [State.fieldReg, afterField_reg_self, fe_enc]

theorem fieldReg_afterField_ne (s : State) {i j : DReg} (x : Fe) (h : j ≠ i) :
    (s.afterField i x).fieldReg j = s.fieldReg j := by
  rw [State.fieldReg, State.afterField, completeOk_reg, setReg_reg_ne _ _ _ _ h, State.fieldReg]

/-- A field element is held by the register that holds its encoding (00_scope.md R13). -/
theorem holds_of_reg_eq_enc {t : State} {i : DReg} {x : Fe} (h : t.reg i = enc x) : Holds t i (toF x) := by
  rw [Holds, h]
  exact ⟨congrArg Nat.cast (enc_toNat x), enc_lt x⟩

/-- The encoding is canonical, so the register's bytes are those of the least integer of the class (40_field.md
R106). -/
theorem toNat_of_holds {t : State} {i : DReg} {n : Nat} (h : Holds t i n) (hn : n < P) : (t.reg i).toNat = n := by
  obtain ⟨hcast, hlt⟩ := h
  exact ((ZMod.natCast_eq_natCast_iff _ _ _).mp hcast).eq_of_lt_of_lt hlt hn

theorem reg_eq_zero_of_holds {t : State} {i : DReg} (h : Holds t i 0) : t.reg i = 0 :=
  BitVec.eq_of_toNat_eq (toNat_of_holds (n := 0) (by rwa [Nat.cast_zero]) (by decide))

theorem reg_eq_one_of_holds {t : State} {i : DReg} (h : Holds t i 1) : t.reg i = 1 :=
  BitVec.eq_of_toNat_eq (toNat_of_holds (n := 1) (by rwa [Nat.cast_one]) (by decide))

theorem succeeds_afterField (s : State) (i : DReg) (x : Fe) : Succeeds [i] s (s.afterField i x) := by
  obtain ⟨t, ht, -, hsucceeds⟩ := finishField_spec i x s
  cases ht
  exact hsucceeds

/-! The five commands, each by the field element it writes (40_field.md R101–R105). -/

theorem exec_fadd (rd ra rb : DReg) (s : State) :
    exec (.fadd rd ra rb) s = .next (s.afterField rd (s.fieldReg ra + s.fieldReg rb)) := rfl

theorem exec_fsub (rd ra rb : DReg) (s : State) :
    exec (.fsub rd ra rb) s = .next (s.afterField rd (s.fieldReg ra - s.fieldReg rb)) := rfl

theorem exec_fmul (rd ra rb : DReg) (s : State) :
    exec (.fmul rd ra rb) s = .next (s.afterField rd (s.fieldReg ra * s.fieldReg rb)) := rfl

theorem exec_finv (rd ra : DReg) (s : State) :
    exec (.finv rd ra) s = .next (s.afterField rd (feInv (s.fieldReg ra))) := rfl

theorem exec_fcanon (rd ra : DReg) (s : State) :
    exec (.fcanon rd ra) s = .next (s.afterField rd (s.fieldReg ra)) := rfl

/-- A command that writes the field element x writes the integer x, and succeeds. -/
theorem exists_next_value {r : Result} {s : State} {i : DReg} {x : Fe} {n : Nat} (hr : r = .next (s.afterField i x))
    (hx : x.val = n) : ∃ t, r = .next t ∧ (t.reg i).toNat = n ∧ Succeeds [i] s t :=
  ⟨_, hr, by rw [afterField_reg_self, enc_toNat, hx], succeeds_afterField s i x⟩

/-- Settles O1: the sum of the two reduced sources is the sum of the sources, modulo p. -/
theorem faddWritesSumModP : Obligations.FaddWritesSumModP := by
  unfold Obligations.FaddWritesSumModP
  refine ⟨encodedAs_build .fadd rfl fun _ _ _ => rfl, fun rd ra rb s => exists_next_value (exec_fadd rd ra rb s) ?_⟩
  rw [Fin.val_add, fieldReg_val, fieldReg_val, prime_eq_P, ← Nat.add_mod]

/-- Settles O2: reducing the sources first does not change the difference modulo p. -/
theorem fsubWritesDifferenceModP : Obligations.FsubWritesDifferenceModP := by
  unfold Obligations.FsubWritesDifferenceModP
  refine ⟨encodedAs_build .fsub rfl fun _ _ _ => rfl, fun rd ra rb s => ?_⟩
  obtain ⟨t, ht, hval, hsucceeds⟩ := exists_next_value (exec_fsub rd ra rb s) rfl
  refine ⟨t, ht, ?_, hsucceeds⟩
  rw [hval, fe_intCast_val_sub, fieldReg_val, fieldReg_val, Int.natCast_mod, Int.natCast_mod, ← Int.sub_emod]

/-- Settles O3: the product of the two reduced sources is the product of the sources, modulo p. -/
theorem fmulWritesProductModP : Obligations.FmulWritesProductModP := by
  unfold Obligations.FmulWritesProductModP
  refine ⟨encodedAs_build .fmul rfl fun _ _ _ => rfl, fun rd ra rb s => exists_next_value (exec_fmul rd ra rb s) ?_⟩
  rw [Fin.val_mul, fieldReg_val, fieldReg_val, prime_eq_P, ← Nat.mul_mod]

/-- What FINV leaves: the inverse of GF(p) (40_field.md R104). -/
theorem holds_afterField_feInv (s : State) (rd ra : DReg) :
    Holds (s.afterField rd (feInv (s.fieldReg ra))) rd (inv (readFe s ra)) := by
  rw [← toF_fieldReg, ← toF_feInv]
  exact holds_of_reg_eq_enc (afterField_reg_self s rd _)

/-- The inverse of 0 is written as 32 zero bytes (40_field.md R104). -/
theorem afterField_feInv_of_zero {s : State} (rd : DReg) {ra : DReg} (h : readFe s ra = 0) :
    (s.afterField rd (feInv (s.fieldReg ra))).reg rd = 0 := by
  have hholds := holds_afterField_feInv s rd ra
  rw [h, inv_of_zero] at hholds
  exact reg_eq_zero_of_holds hholds

/-- Settles O4: square-and-multiply gives the power, and Fermat's little theorem says what the power is. -/
theorem finvWritesFermatPower : Obligations.FinvWritesFermatPower := by
  unfold Obligations.FinvWritesFermatPower
  refine ⟨encodedAs_build .finv rfl fun _ _ _ => rfl, fun rd ra s => ?_⟩
  have hholds := holds_afterField_feInv s rd ra
  refine ⟨_, exec_finv rd ra s, hholds, afterField_feInv_of_zero rd, fun hne => ?_, succeeds_afterField s rd _⟩
  rw [hholds.1]
  exact mul_inv_of_ne_zero hne

/-- Settles O5: FINV leaves the source alone, so the FMUL multiplies it by its inverse. -/
theorem finvInvertsEveryNonzero : Obligations.FinvInvertsEveryNonzero := by
  unfold Obligations.FinvInvertsEveryNonzero
  intro rd ra re s hne
  refine ⟨_, _, exec_finv rd ra s, exec_fmul re ra rd _, fun hzero => ?_, fun hnz => ?_⟩
  · exact afterField_feInv_of_zero rd ((readFe_eq_zero_iff s ra).mpr hzero)
  · apply reg_eq_one_of_holds
    rw [fieldReg_afterField_self, fieldReg_afterField_ne s _ hne.symm,
      ← mul_inv_of_ne_zero (mt (readFe_eq_zero_iff s ra).mp hnz), ← toF_fieldReg, ← toF_feInv, ← toF_mul]
    exact holds_of_reg_eq_enc (afterField_reg_self _ re _)

/-- Settles O6: a field read is the reduction. -/
theorem fcanonWritesReducedValue : Obligations.FcanonWritesReducedValue := by
  unfold Obligations.FcanonWritesReducedValue
  exact ⟨encodedAs_build .fcanon rfl fun _ _ _ => rfl, fun rd ra s =>
    exists_next_value (exec_fcanon rd ra s) (fieldReg_val s ra)⟩

/-- Settles O7: each side is run command by command, and the two field elements written are equal by a law of GF(p). -/
theorem fieldCommandsObeyRingLaws : Obligations.FieldCommandsObeyRingLaws := by
  unfold Obligations.FieldCommandsObeyRingLaws
  refine ⟨fun rd ra rb s => ⟨?_, ?_⟩, fun a b c x y s hxc hya => ⟨?_, ?_⟩, fun a b c x y z s hxa hya hyc hzy => ?_,
    fun rd ra rb rn s hneg => ?_⟩
  · rw [exec_fadd, exec_fadd, add_comm]
  · rw [exec_fmul, exec_fmul, Fin.mul_comm]
  · refine ⟨_, _, _, _, exec_fadd x a b s, exec_fadd x x c _, exec_fadd y b c s, exec_fadd y a y _, ?_⟩
    simp only [afterField_reg_self, fieldReg_afterField_self, fieldReg_afterField_ne s _ hxc.symm,
      fieldReg_afterField_ne s _ hya.symm, add_assoc]
  · refine ⟨_, _, _, _, exec_fmul x a b s, exec_fmul x x c _, exec_fmul y b c s, exec_fmul y a y _, ?_⟩
    simp only [afterField_reg_self, fieldReg_afterField_self, fieldReg_afterField_ne s _ hxc.symm,
      fieldReg_afterField_ne s _ hya.symm, Fin.mul_assoc]
  · refine ⟨_, _, _, _, _, exec_fadd x b c s, exec_fmul x a x _, exec_fmul y a b s, exec_fmul z a c _,
      exec_fadd y y z _, ?_⟩
    simp only [afterField_reg_self, fieldReg_afterField_self, fieldReg_afterField_ne _ _ hxa.symm,
      fieldReg_afterField_ne _ _ hya.symm, fieldReg_afterField_ne _ _ hyc.symm, fieldReg_afterField_ne _ _ hzy.symm,
      mul_add]
  · rw [exec_fsub, exec_fadd, fe_sub_eq_add]
    rw [toF_fieldReg, toF_fieldReg, readFe, readFe, ← Nat.cast_add, ZMod.natCast_eq_zero_iff]
    exact Nat.dvd_of_mod_eq_zero hneg

end Sys2Proof.Machine
end

section
/-! PROOFS. The statements about the Edwards commands (41_edwards.md), after the facts they rest on: which words are a
command with point fields, the model's points as points over GF(p), and what a command that writes a point register
leaves in its slots. -/

namespace Sys2Proof

open Sys2Proof.Machine Sys2Proof.Reference

/-! The words of a command with point fields (30_encoding.md R82, R83, R85). -/

/-- The lowest bits of the fields that a format names as point registers (30_encoding.md R82). -/
def Format.points : Format → List Nat
  | .f3 | .f2 | .f1 => []
  | .p3 => [8, 12, 16]
  | .p2 => [8, 12]
  | .p1 | .ps => [8]
  | .up => [12]

/-- The decoder's third check as bounds on the word's point fields (60_exceptions.md R205). -/
theorem pointsLegal_iff (f : Format) (w : Word) : f.pointsLegal (rdField w) (raField w) (rbField w) = true ↔
    ∀ lo ∈ f.points, w.toNat / 2 ^ lo % 16 < 4 := by
  have legal_iff : ∀ lo, PNum.legal (indexField lo w) = true ↔ w.toNat / 2 ^ lo % 16 < 4 := fun lo => by
    rw [PNum.legal, decide_eq_true_iff, indexField_val]
  cases f <;>
    simp only [Format.pointsLegal, Format.points, rdField, raField, rbField, Bool.and_eq_true, legal_iff,
      List.forall_mem_cons, List.not_mem_nil, false_implies, implies_true, and_true, and_assoc]

/-- An operation whose format has `fields` fields is encoded with its opcode and the format's point fields. -/
theorem encodedWithPoints_build (op : Op) {fields : Nat} (htop : op.format.top = 8 + 4 * fields) :
    EncodedWithPoints op.code.toNat fields op.format.points op.build := by
  intro w hw
  have hop := opOf?_opField hw
  rw [← htop, ← indexField_eq_nibble, ← indexField_eq_nibble, ← indexField_eq_nibble]
  refine ⟨decode_of_reserved hop, fun hrsv ⟨lo, hmem, hbad⟩ => decode_of_bad_point hop hrsv ?_,
    fun hrsv hpoints => decode_of_legal hop hrsv ((pointsLegal_iff _ w).mpr hpoints)⟩
  exact Bool.eq_false_iff.mpr fun hlegal => Nat.not_lt.mpr hbad ((pointsLegal_iff _ w).mp hlegal lo hmem)

end Sys2Proof

namespace Sys2Proof.Machine

open Sys2Proof.Reference

/-! The model's points as points over GF(p) (10_state.md R24; 41_edwards.md R120–R127). -/

/-- The point over GF(p) that an extended point of the model stands for. -/
def Extended.toPoint (p : Extended) : Point := ⟨toF p.x, toF p.y, toF p.z, toF p.t⟩

@[simp] theorem toF_curve2D : toF curve2D = twoD := by
  rw [curve2D, toF_feOfNat, Nat.cast_ofNat, twoD]

@[simp] theorem toF_baseX : toF baseX = Bx := by
  rw [baseX, toF_feOfNat, Nat.cast_ofNat, Bx]

@[simp] theorem toF_baseY : toF baseY = By := by
  rw [baseY, toF_feOfNat, Nat.cast_ofNat, By]

theorem toPoint_extendedReg (s : State) (n : PReg) : (s.extendedReg n).toPoint = readPoint s n := by
  simp only [State.extendedReg, Extended.toPoint, toF_fieldReg]
  rfl

theorem toPoint_neutralPoint : neutralPoint.toPoint = neutral := by
  simp [neutralPoint, Extended.toPoint, neutral]

theorem toPoint_basePoint : basePoint.toPoint = base := by
  simp [basePoint, Extended.toPoint, base]

/-- EADD of the model is the addition formula over GF(p) (41_edwards.md R125). -/
theorem toPoint_eadd (p q : Extended) : (eadd p q).toPoint = add p.toPoint q.toPoint := by
  simp [eadd, Extended.toPoint, add, efgh]

/-- EMADD of the model is the mixed addition formula over GF(p) (41_edwards.md R126). -/
theorem toPoint_emadd (p : Extended) (q : Precomputed) :
    (emadd p q).toPoint = madd p.toPoint (toF q.yplusx) (toF q.yminusx) (toF q.xy2d) := by
  simp [emadd, Extended.toPoint, madd, efgh]

/-- EDBL of the model is the doubling formula over GF(p) (41_edwards.md R127). -/
theorem toPoint_edbl (p : Extended) : (edbl p.toProjective).toPoint = dbl p.toPoint := by
  simp only [edbl, Extended.toProjective, Extended.toPoint, dbl, efgh, toF_add, toF_sub, toF_mul, toF_feOfNat,
    Nat.cast_zero, Nat.cast_ofNat, Point.mk.injEq]
  refine ⟨?_, ?_, ?_, ?_⟩ <;> ring

/-- One iteration of BaseMul over GF(p): double, and add the base point if bit i of k is set (41_edwards.md R131). -/
def doubleAndAdd (k : Nat) (R : Point) (i : Nat) : Point := if k.testBit i then add (dbl R) base else dbl R

theorem toPoint_baseMulStep (k i : Nat) (r : Extended) :
    (baseMulStep (k.testBit i) r).toPoint = doubleAndAdd k r.toPoint i := by
  rw [baseMulStep, selectPoint, apply_ite Extended.toPoint, toPoint_eadd, toPoint_edbl, toPoint_basePoint, doubleAndAdd]

/-- The loop of BaseMul is the fold over the bit positions from the highest down (41_edwards.md R131). -/
theorem toPoint_baseMulFrom (k n : Nat) (r : Extended) :
    (baseMulFrom k n r).toPoint = (List.range n).reverse.foldl (doubleAndAdd k) r.toPoint := by
  induction n generalizing r with
  | zero => rfl
  | succ n ih =>
    rw [baseMulFrom, ih, toPoint_baseMulStep, List.range_succ, List.reverse_concat, List.foldl_cons]

theorem toPoint_baseMul (k : Nat) : (baseMul k).toPoint = Reference.baseMul k := by
  rw [baseMul, toPoint_baseMulFrom, toPoint_neutralPoint]
  rfl

/-- EADD with an affine second operand is EMADD with its precomputed form (41_edwards.md R126). -/
theorem add_affine (p : Point) (x y : F) :
    add p ⟨x, y, 1, x * y⟩ = madd p (y + x) (y - x) (twoD * x * y) := by
  simp only [add, madd, mul_one, mul_assoc]

/-! What a command leaves that writes the four slots of a point register (10_state.md R23, R27; 60_exceptions.md
R210). -/

/-- The command runs from `s` to a next state whose slots of P[d] hold the point q, and succeeds. -/
def WritesPoint (i : Instr) (s : State) (d : PReg) (q : Point) : Prop :=
  ∃ t, exec i s = .next t ∧ HoldsPoint t d q ∧ Succeeds (quad d) s t

/-- Four encodings written to a point register: its slots hold the four elements. -/
theorem finishPoint_holdsFour (d : PReg) (a b c e : Fe) (s : State) :
    ∃ t, finishPoint d (enc a) (enc b) (enc c) (enc e) s = .next t ∧
      HoldsFour t d (toF a) (toF b) (toF c) (toF e) ∧ Succeeds (quad d) s t := by
  obtain ⟨t, ht, hslot, hsucceeds⟩ := finishPoint_spec d (enc a) (enc b) (enc c) (enc e) s
  exact ⟨t, ht, ⟨holds_of_reg_eq_enc (hslot 0), holds_of_reg_eq_enc (hslot 1), holds_of_reg_eq_enc (hslot 2),
    holds_of_reg_eq_enc (hslot 3)⟩, hsucceeds⟩

/-- A command that ends by writing the extended point p writes the point p stands for. -/
theorem writesPoint_of_extended {i : Instr} {s : State} {d : PReg} {p : Extended} {q : Point}
    (hexec : exec i s = finishExtended d p s) (hq : p.toPoint = q) : WritesPoint i s d q := by
  rw [WritesPoint, hexec, ← hq]
  exact finishPoint_holdsFour d p.x p.y p.z p.t s

theorem WritesPoint.holdsPoint {i : Instr} {s t : State} {d : PReg} {q : Point} (h : WritesPoint i s d q)
    (ht : exec i s = .next t) : HoldsPoint t d q := by
  obtain ⟨u, hu, hholds, -⟩ := h
  cases hu.symm.trans ht
  exact hholds

/-! The six commands that write an extended point, each by that point (41_edwards.md R123–R127, R130). -/

theorem writesPoint_pldi (d : PReg) (s : State) : WritesPoint (.pldi (num d)) s d neutral :=
  writesPoint_of_extended (exec_pldi_num d s) toPoint_neutralPoint

theorem writesPoint_pldb (d : PReg) (s : State) : WritesPoint (.pldb (num d)) s d base :=
  writesPoint_of_extended (exec_pldb_num d s) toPoint_basePoint

theorem writesPoint_padd (d a b : PReg) (s : State) :
    WritesPoint (.padd (num d) (num a) (num b)) s d (add (readPoint s a) (readPoint s b)) :=
  writesPoint_of_extended (exec_padd_num d a b s) (by rw [toPoint_eadd, toPoint_extendedReg, toPoint_extendedReg])

theorem writesPoint_pmadd (d a b : PReg) (s : State) : WritesPoint (.pmadd (num d) (num a) (num b)) s d
    (madd (readPoint s a) (readFe s (at4 b 0)) (readFe s (at4 b 1)) (readFe s (at4 b 2))) :=
  writesPoint_of_extended (exec_pmadd_num d a b s) (by
    rw [toPoint_emadd, toPoint_extendedReg]
    simp only [State.precomputedReg, toF_fieldReg]
    rfl)

theorem writesPoint_pdbl (d a : PReg) (s : State) :
    WritesPoint (.pdbl (num d) (num a)) s d (dbl (readPoint s a)) :=
  writesPoint_of_extended (exec_pdbl_num d a s) (by rw [← toPoint_extendedReg, ← toPoint_edbl]; rfl)

theorem writesPoint_pbasemul (d : PReg) (ra : DReg) (s : State) :
    WritesPoint (.pbasemul (num d) ra) s d (Reference.baseMul (s.reg ra).toNat) :=
  writesPoint_of_extended (exec_pbasemul_num d ra s) (toPoint_baseMul _)

/-- Settles O8: the encodings of 0 and 1 are the strings 0 and 1. -/
theorem pldiLoadsNeutralElement : Obligations.PldiLoadsNeutralElement := by
  unfold Obligations.PldiLoadsNeutralElement
  refine ⟨encodedWithPoints_build .pldi rfl, fun d s => ?_⟩
  obtain ⟨t, ht, ⟨hx, hy, hz, hT⟩, hsucceeds⟩ := writesPoint_pldi d s
  exact ⟨t, ht, reg_eq_zero_of_holds hx, reg_eq_one_of_holds hy, reg_eq_one_of_holds hz, reg_eq_zero_of_holds hT,
    hsucceeds⟩

/-- The T coordinate of the base point, as the spec prints it (41_edwards.md R121). -/
theorem base_T : base.T = ((0x67875f0fd78b766566ea4e8e64abe37d20f09f80775152f56dde8ab3a5b7dda3 : Nat) : F) := by
  have hval : basePoint.t.val = 0x67875f0fd78b766566ea4e8e64abe37d20f09f80775152f56dde8ab3a5b7dda3 := by decide
  rw [← toPoint_basePoint, ← hval]
  rfl

/-- Settles O9: slot 3 holds Bx·By, and the printed value is the integer below p of its class. -/
theorem pldbLoadsBasePoint : Obligations.PldbLoadsBasePoint := by
  unfold Obligations.PldbLoadsBasePoint
  refine ⟨encodedWithPoints_build .pldb rfl, fun d s => ?_⟩
  obtain ⟨t, ht, hholds, hsucceeds⟩ := writesPoint_pldb d s
  have ⟨_, _, _, hT⟩ := hholds
  rw [base_T] at hT
  exact ⟨t, ht, hholds, toNat_of_holds hT (by decide), hsucceeds⟩

/-- Settles O10: EADD of the operands read is the sum over GF(p). -/
theorem paddWritesUnifiedSum : Obligations.PaddWritesUnifiedSum := by
  unfold Obligations.PaddWritesUnifiedSum
  exact ⟨encodedWithPoints_build .padd rfl, writesPoint_padd⟩

/-- Settles O11: for the precomputed form of an affine point the mixed sum is the sum, by `add_affine`. -/
theorem pmaddWritesMixedSum : Obligations.PmaddWritesMixedSum := by
  unfold Obligations.PmaddWritesMixedSum
  refine ⟨encodedWithPoints_build .pmadd rfl, fun d a b s => ?_⟩
  obtain ⟨t, ht, hholds, hsucceeds⟩ := writesPoint_pmadd d a b s
  refine ⟨t, ht, hholds, fun x y h0 h1 h2 => ?_, hsucceeds⟩
  rwa [add_affine, ← h0, ← h1, ← h2]

/-- Settles O12: EDBL of the operand read is the double over GF(p). -/
theorem pdblWritesDouble : Obligations.PdblWritesDouble := by
  unfold Obligations.PdblWritesDouble
  exact ⟨encodedWithPoints_build .pdbl rfl, writesPoint_pdbl⟩

/-- Settles O13: the three values of the precomputed form, read over GF(p), and 0 in slot 3. -/
theorem ptopreWritesPrecomputedForm : Obligations.PtopreWritesPrecomputedForm := by
  unfold Obligations.PtopreWritesPrecomputedForm
  refine ⟨encodedWithPoints_build .ptopre rfl, fun d a s => ?_⟩
  rw [exec_ptopre_num, finishPrecomputed]
  obtain ⟨t, ht, hholds, hsucceeds⟩ := finishPoint_holdsFour d _ _ _ _ s
  refine ⟨t, ht, fun x y hx hy => ?_, hsucceeds⟩
  simp only [toPrecomputed, State.projectiveReg, toF_add, toF_sub, toF_mul, toF_feInv, toF_fieldReg, toF_curve2D,
    toF_feOfNat, Nat.cast_zero] at hholds
  rw [hx, hy]
  exact hholds

/-- Settles O14: the operand is read before the register is written, and `toU` is the quotient over GF(p). -/
theorem ptouWritesMontgomeryU : Obligations.PtouWritesMontgomeryU := by
  unfold Obligations.PtouWritesMontgomeryU
  refine ⟨encodedWithPoints_build .ptou rfl, fun rd a s => ?_⟩
  have hholds := holds_of_reg_eq_enc (afterField_reg_self s rd (toU (s.projectiveReg a)))
  simp only [toU, State.projectiveReg, toF_add, toF_sub, toF_mul, toF_feInv, toF_fieldReg] at hholds
  exact ⟨_, exec_ptou_num rd a s, hholds, succeeds_afterField s rd _⟩

/-- Settles O15: the model's loop is the fold over the bits, by `toPoint_baseMul`. -/
theorem pbasemulWritesDoubleAndAdd : Obligations.PbasemulWritesDoubleAndAdd := by
  unfold Obligations.PbasemulWritesDoubleAndAdd
  exact ⟨encodedWithPoints_build .pbasemul rfl, writesPoint_pbasemul⟩

/-! The relation X·Y = Z·T of an extended point (41_edwards.md R132). -/

/-- T is the extended coordinate of (X, Y, Z). -/
def TConsistent (q : Point) : Prop := q.X * q.Y = q.Z * q.T

/-- The relation holds by the last line of the formulas alone, whatever E, F, G and H are. -/
theorem tConsistent_efgh (E F' G H : F) : TConsistent (efgh E F' G H) := by
  simp only [TConsistent, efgh]
  ring

theorem tConsistent_doubleAndAdd (k : Nat) (R : Point) (i : Nat) : TConsistent (doubleAndAdd k R i) := by
  unfold doubleAndAdd
  split <;> exact tConsistent_efgh _ _ _ _

theorem tConsistent_neutral : TConsistent neutral := by
  simp [TConsistent, neutral]

theorem tConsistent_base : TConsistent base := by
  simp [TConsistent, base]

theorem tConsistent_baseMul (k : Nat) : TConsistent (Reference.baseMul k) :=
  List.foldlRecOn _ (doubleAndAdd k) tConsistent_neutral fun R _ i _ => tConsistent_doubleAndAdd k R i

/-- The registers of a point with the relation satisfy it as integers modulo p. -/
theorem products_mod_eq {t : State} {d : PReg} {q : Point} (h : HoldsPoint t d q) (hq : TConsistent q) :
    (t.reg (at4 d 0)).toNat * (t.reg (at4 d 1)).toNat % P = (t.reg (at4 d 2)).toNat * (t.reg (at4 d 3)).toNat % P := by
  obtain ⟨⟨hx, -⟩, ⟨hy, -⟩, ⟨hz, -⟩, hT, -⟩ := h
  rw [← ZMod.natCast_eq_natCast_iff', Nat.cast_mul, Nat.cast_mul, hx, hy, hz, hT]
  exact hq

/-- Settles O16: the sums and doubles end in `efgh`, BaseMul ends in one of them, and the constants are checked. -/
theorem extendedResultsSatisfyXYEqualsZT : Obligations.ExtendedResultsSatisfyXYEqualsZT := by
  unfold Obligations.ExtendedResultsSatisfyXYEqualsZT
  rintro d a b ra s t (ht | ht | ht | ht | ht | ht)
  · exact products_mod_eq ((writesPoint_padd d a b s).holdsPoint ht) (tConsistent_efgh _ _ _ _)
  · exact products_mod_eq ((writesPoint_pmadd d a b s).holdsPoint ht) (tConsistent_efgh _ _ _ _)
  · exact products_mod_eq ((writesPoint_pdbl d a s).holdsPoint ht) (tConsistent_efgh _ _ _ _)
  · exact products_mod_eq ((writesPoint_pbasemul d ra s).holdsPoint ht) (tConsistent_baseMul _)
  · exact products_mod_eq ((writesPoint_pldi d s).holdsPoint ht) tConsistent_neutral
  · exact products_mod_eq ((writesPoint_pldb d s).holdsPoint ht) tConsistent_base

/-! Mixed addition after PTOPRE (41_edwards.md R126, R128). -/

theorem inv_of_one : inv 1 = 1 := one_pow _

/-- A register that holds x is read as x. -/
theorem readFe_of_holds {t : State} {i : DReg} {x : F} (h : Holds t i x) : readFe t i = x := by
  obtain ⟨hcast, hlt⟩ := h
  rw [readFe, low255, Nat.mod_eq_of_lt (hlt.trans prime_lt), hcast]

/-- The canonical encoding is unique (00_scope.md R13). -/
theorem reg_eq_of_holds {t u : State} {i : DReg} {x : F} (ht : Holds t i x) (hu : Holds u i x) : t.reg i = u.reg i := by
  obtain ⟨hcast, hlt⟩ := hu
  exact BitVec.eq_of_toNat_eq (toNat_of_holds (hcast ▸ ht) hlt)

theorem reg_eq_of_holdsPoint {t u : State} {d : PReg} {q : Point} (ht : HoldsPoint t d q) (hu : HoldsPoint u d q)
    (k : Fin 4) : t.reg (at4 d k) = u.reg (at4 d k) := by
  obtain ⟨htx, hty, htz, htT⟩ := ht
  obtain ⟨hux, huy, huz, huT⟩ := hu
  match k with
  | 0 => exact reg_eq_of_holds htx hux
  | 1 => exact reg_eq_of_holds hty huy
  | 2 => exact reg_eq_of_holds htz huz
  | 3 => exact reg_eq_of_holds htT huT

/-- A command that writes P[c] alone leaves every other point register's reading. -/
theorem readPoint_of_succeeds {s t : State} {a c : PReg} (h : Succeeds (quad c) s t) (hne : c ≠ a) :
    readPoint t a = readPoint s a := by
  obtain ⟨-, ⟨hreg, -⟩, -⟩ := h
  have hslot : ∀ k, t.reg (at4 a k) = s.reg (at4 a k) := fun k => hreg _ fun hmem => by
    obtain ⟨l, hl⟩ := mem_quad_iff.mp hmem
    exact hne (slot_inj hl).1.symm
  simp only [readPoint, readFe, low255, hslot]

/-- Settles O17: PTOPRE leaves the first operand and writes the precomputed form of the affine (X, Y), so PMADD writes
the sum by O11, and two registers that hold the same element are equal. -/
theorem mixedAdditionAgreesWithAddition : Obligations.MixedAdditionAgreesWithAddition := by
  unfold Obligations.MixedAdditionAgreesWithAddition
  intro d a b c s hne hz hT
  obtain ⟨t, ht, hsum, -⟩ := writesPoint_padd d a b s
  obtain ⟨u, hu, hpre, hsucceeds⟩ := ptopreWritesPrecomputedForm.2 c b s
  obtain ⟨v, hv, -, hmixed, -⟩ := pmaddWritesMixedSum.2 d a c u
  refine ⟨t, u, v, ht, hu, hv, reg_eq_of_holdsPoint ?_ hsum⟩
  have hinv : inv (readFe s (at4 b 2)) = 1 := by rw [hz, inv_of_one]
  obtain ⟨h0, h1, h2, -⟩ := hpre (readFe s (at4 b 0)) (readFe s (at4 b 1)) (by rw [hinv, mul_one])
    (by rw [hinv, mul_one])
  have haffine : readPoint s b =
      ⟨readFe s (at4 b 0), readFe s (at4 b 1), 1, readFe s (at4 b 0) * readFe s (at4 b 1)⟩ := by
    rw [readPoint, hz, hT]
  rw [haffine, ← readPoint_of_succeeds hsucceeds hne]
  exact hmixed _ _ (readFe_of_holds h0) (readFe_of_holds h1) (readFe_of_holds h2)

end Sys2Proof.Machine
end

section
/-! PROOFS. The statements about the ladder command (42_ladder.md), after the facts they rest on: the model's running
points over GF(p), the ladder as a fold of one iteration over the scalar's bits, and what an iteration keeps. -/

namespace Sys2Proof.Machine

open Sys2Proof.Reference

/-! The ladder of the statements, by its one iteration and its last line (42_ladder.md R150). -/

/-- One iteration for bit t of k over GF(p): swap, step, swap back (42_ladder.md R150). -/
def ladderIteration (k : Nat) (u : F) (r : Rung) (t : Nat) : Rung :=
  cswap (k.testBit t) (rungStep u (cswap (k.testBit t) r))

/-- The running points before the first iteration: the neutral element and u (42_ladder.md R150). -/
def firstRung (u : F) : Rung := ⟨1, 0, u, 1⟩

/-- The value returned: x2 · inv(z2) (42_ladder.md R150). -/
def affineX2 (r : Rung) : F := r.x2 * inv r.z2

theorem ladder_eq_affineX2 (k : Nat) (u : F) :
    ladder k u = affineX2 ((List.range 255).reverse.foldl (ladderIteration k u) (firstRung u)) := by
  rw [ladder, affineX2]
  rfl

/-! The model's ladder as the fold over GF(p). -/

/-- The running points over GF(p) that those of the model stand for. -/
def LadderState.toRung (s : LadderState) : Rung := ⟨toF s.x2, toF s.z2, toF s.x3, toF s.z3⟩

theorem toRung_ladderSwap (b : Bool) (s : LadderState) : (ladderSwap b s).toRung = cswap b s.toRung := by
  rw [ladderSwap, apply_ite LadderState.toRung]
  rfl

theorem toRung_ladderStep (u : Fe) (s : LadderState) : (ladderStep u s).toRung = rungStep (toF u) s.toRung := by
  simp only [ladderStep, LadderState.toRung, rungStep, toF_add, toF_sub, toF_mul, toF_feOfNat, Nat.cast_ofNat, pow_two]

/-- The loop of the ladder is the fold over the bit positions from the highest down (42_ladder.md R150). -/
theorem toRung_ladderFrom (k : Nat) (u : Fe) (n : Nat) (s : LadderState) :
    (ladderFrom k u n s).toRung = (List.range n).reverse.foldl (ladderIteration k (toF u)) s.toRung := by
  induction n generalizing s with
  | zero => rfl
  | succ n ih =>
    rw [ladderFrom, ih, toRung_ladderSwap, toRung_ladderStep, toRung_ladderSwap, List.range_succ, List.reverse_concat,
      List.foldl_cons, ladderIteration]

theorem toF_ladderFn (k : Nat) (u : Fe) : toF (ladderFn k u) = ladder k (toF u) := by
  have hfirst : LadderState.toRung ⟨feOfNat 1, feOfNat 0, u, feOfNat 1⟩ = firstRung (toF u) := by
    simp [LadderState.toRung, firstRung]
  rw [ladderFn, toF_mul, toF_feInv, ladder_eq_affineX2, ← hfirst, ← toRung_ladderFrom]
  rfl

/-! LADDER, by the field element it writes (42_ladder.md R151). -/

theorem exec_ladder (rd ra rb : DReg) (s : State) :
    exec (.ladder rd ra rb) s = .next (s.afterField rd (ladderFn (s.scalarReg ra) (s.fieldReg rb))) := rfl

/-- Settles O18: the model's loop is the fold over the bits, by `toF_ladderFn`. -/
theorem ladderWritesSwapStepSwapBack : Obligations.LadderWritesSwapStepSwapBack := by
  unfold Obligations.LadderWritesSwapStepSwapBack
  refine ⟨encodedAs_build .ladder rfl fun _ _ _ => rfl, fun rd ra rb s => ?_⟩
  have hholds := holds_of_reg_eq_enc (afterField_reg_self s rd (ladderFn (s.scalarReg ra) (s.fieldReg rb)))
  rw [toF_ladderFn, toF_fieldReg] at hholds
  exact ⟨_, exec_ladder rd ra rb s, hholds, succeeds_afterField s rd _⟩

/-- LADDER writes the ladder's value (42_ladder.md R151). -/
theorem exists_next_holds_ladder (rd ra rb : DReg) (s : State) :
    ∃ t, exec (.ladder rd ra rb) s = .next t ∧ Holds t rd (ladder (s.reg ra).toNat (readFe s rb)) := by
  obtain ⟨t, ht, hholds, -⟩ := ladderWritesSwapStepSwapBack.2 rd ra rb s
  exact ⟨t, ht, hholds⟩

/-! The deferred-swap form (42_ladder.md R153). -/

/-- Two swaps in a row are one, by the XOR of their bits. -/
theorem cswap_cswap (b c : Bool) (r : Rung) : cswap c (cswap b r) = cswap (b ^^ c) r := by
  cases b <;> cases c <;> rfl

/-- One iteration of RFC 7748's form: bit t, whose swap back is due, and the points before it (42_ladder.md R153). -/
def deferredIteration (k : Nat) (u : F) (q : Bool × Rung) (t : Nat) : Bool × Rung :=
  (k.testBit t, rungStep u (cswap (q.1 ^^ k.testBit t) q.2))

/-- The points of the deferred form after the swap that is due. -/
def swapDue (q : Bool × Rung) : Rung := cswap q.1 q.2

theorem deferredLadder_eq_affineX2 (k : Nat) (u : F) : deferredLadder k u =
    affineX2 (swapDue ((List.range 255).reverse.foldl (deferredIteration k u) (false, firstRung u))) := by
  rw [deferredLadder, affineX2]
  rfl

theorem swapDue_deferredIteration (k : Nat) (u : F) (q : Bool × Rung) (t : Nat) :
    swapDue (deferredIteration k u q t) = ladderIteration k u (swapDue q) t := by
  rw [swapDue, deferredIteration, ladderIteration, swapDue, cswap_cswap]

/-- Both forms hold the same points after every iteration (42_ladder.md R153). -/
theorem swapDue_foldl_deferredIteration (k : Nat) (u : F) (ts : List Nat) (q : Bool × Rung) :
    swapDue (ts.foldl (deferredIteration k u) q) = ts.foldl (ladderIteration k u) (swapDue q) :=
  (List.foldl_hom swapDue fun q t => (swapDue_deferredIteration k u q t).symm).symm

theorem deferredLadder_eq_ladder (k : Nat) (u : F) : deferredLadder k u = ladder k u := by
  rw [deferredLadder_eq_affineX2, swapDue_foldl_deferredIteration, ladder_eq_affineX2]
  rfl

/-- Settles O19: the two forms of the ladder are one function. -/
theorem ladderAgreesWithDeferredSwap : Obligations.LadderAgreesWithDeferredSwap := by
  unfold Obligations.LadderAgreesWithDeferredSwap
  intro rd ra rb s
  rw [deferredLadder_eq_ladder]
  exact exists_next_holds_ladder rd ra rb s

/-! Which bits of the operands count (42_ladder.md R152). -/

/-- Bit 255 of the scalar and those above it are never read. -/
theorem ladder_mod (k : Nat) (u : F) : ladder (k % 2 ^ 255) u = ladder k u := by
  rw [ladder_eq_affineX2, ladder_eq_affineX2]
  refine congrArg affineX2 (List.foldl_ext _ _ _ fun r t ht => ?_)
  have hlt : t < 255 := List.mem_range.mp (List.mem_reverse.mp ht)
  simp only [ladderIteration, Nat.testBit_mod_two_pow, hlt, decide_true, Bool.true_and]

/-- The ladder of a scalar register is that of the register's low 255 bits. -/
theorem ladder_low255 (s : State) (i : DReg) (u : F) : ladder (low255 s i) u = ladder (s.reg i).toNat u :=
  ladder_mod _ u

/-- Settles O20: the field element written depends on the low 255 bits of the scalar and on u modulo p, and two
registers that hold the same element are equal. -/
theorem ladderIgnoresBit255 : Obligations.LadderIgnoresBit255 := by
  unfold Obligations.LadderIgnoresBit255
  intro rd ra rb s s' hk hu
  have hread : readFe s rb = readFe s' rb := (ZMod.natCast_eq_natCast_iff' _ _ _).mpr hu
  obtain ⟨t, ht, hholds⟩ := exists_next_holds_ladder rd ra rb s
  obtain ⟨t', ht', hholds'⟩ := exists_next_holds_ladder rd ra rb s'
  rw [← ladder_low255, hk, hread, ladder_low255] at hholds
  exact ⟨t, t', ht, ht', reg_eq_of_holds hholds hholds'⟩

/-! The ladder of u = 0 (42_ladder.md R152). -/

/-- In each of the running points a coordinate is 0. -/
structure Degenerate (r : Rung) : Prop where
  first : r.x2 * r.z2 = 0
  second : r.x3 * r.z3 = 0

theorem Degenerate.swapped {r : Rung} (h : Degenerate r) (b : Bool) : Degenerate (cswap b r) := by
  cases b
  · exact h
  · exact ⟨h.second, h.first⟩

/-- The new z2 is a multiple of E = 4·x2·z2, and the new z3 is a multiple of u. -/
theorem Degenerate.stepped {r : Rung} (h : Degenerate r) : Degenerate (rungStep 0 r) := by
  have hE : (r.x2 + r.z2) ^ 2 - (r.x2 - r.z2) ^ 2 = 0 := by linear_combination 4 * h.first
  constructor
  · rw [rungStep, hE, zero_mul, mul_zero]
  · rw [rungStep, zero_mul, mul_zero]

theorem Degenerate.affineX2_eq_zero {r : Rung} (h : Degenerate r) : affineX2 r = 0 := by
  have : Fact (Nat.Prime P) := ⟨prime_prime⟩
  obtain hx | hz := mul_eq_zero.mp h.first
  · rw [affineX2, hx, zero_mul]
  · rw [affineX2, hz, inv_of_zero, mul_zero]

theorem degenerate_firstRung_zero : Degenerate (firstRung 0) := ⟨mul_zero 1, zero_mul 1⟩

theorem ladder_of_u_zero (k : Nat) : ladder k 0 = 0 := by
  rw [ladder_eq_affineX2]
  exact (List.foldlRecOn _ (ladderIteration k 0) degenerate_firstRung_zero fun _ hr _ _ =>
    ((hr.swapped _).stepped).swapped _).affineX2_eq_zero

/-! The iterations before the scalar's highest set bit (42_ladder.md R152). -/

/-- The neutral element, then u with denominator z. -/
def neutralThenU (u z : F) : Rung := ⟨1, 0, u * z, z⟩

/-- The denominator z after the differential addition of u and the neutral element. -/
def nextDenominator (u z : F) : F := u * (2 * z) ^ 2

theorem nextDenominator_ne_zero {u z : F} (hu : u ≠ 0) (hz : z ≠ 0) : nextDenominator u z ≠ 0 := by
  have : Fact (Nat.Prime P) := ⟨prime_prime⟩
  have htwo : (2 : F) ≠ 0 := by
    rw [← Nat.cast_ofNat, Ne, ZMod.natCast_eq_zero_iff]
    decide
  exact mul_ne_zero hu (pow_ne_zero 2 (mul_ne_zero htwo hz))

theorem firstRung_eq_neutralThenU (u : F) : firstRung u = neutralThenU u 1 := by
  rw [firstRung, neutralThenU, mul_one]

/-- For a clear bit the neutral element is doubled, and added to u. -/
theorem ladderIteration_neutralThenU_of_clear {k t : Nat} (hbit : k.testBit t = false) (u z : F) :
    ladderIteration k u (neutralThenU u z) t = neutralThenU u (nextDenominator u z) := by
  rw [ladderIteration, hbit]
  simp only [cswap, Bool.false_eq_true, if_false, rungStep, neutralThenU, nextDenominator, Rung.mk.injEq]
  refine ⟨?_, ?_, ?_, ?_⟩ <;> ring

/-- For a set bit the points change places, so the sum, which is u again, becomes the first (42_ladder.md R152). -/
theorem affineX2_ladderIteration_neutralThenU_of_set {k t : Nat} (hbit : k.testBit t = true) {u z : F}
    (hz : u ≠ 0 → z ≠ 0) : affineX2 (ladderIteration k u (neutralThenU u z) t) = u := by
  have hx2 : (ladderIteration k u (neutralThenU u z) t).x2 = u * nextDenominator u z := by
    simp only [ladderIteration, hbit, cswap, if_true, rungStep, neutralThenU, nextDenominator]
    ring
  have hz2 : (ladderIteration k u (neutralThenU u z) t).z2 = nextDenominator u z := by
    simp only [ladderIteration, hbit, cswap, if_true, rungStep, neutralThenU, nextDenominator]
    ring
  rw [affineX2, hx2, hz2, mul_assoc]
  by_cases hu : u = 0
  · rw [hu, zero_mul]
  · rw [mul_inv_of_ne_zero (nextDenominator_ne_zero hu (hz hu)), mul_one]

/-- Clear bits alone leave the neutral element and u, whose denominator is 0 only for u = 0. -/
theorem foldl_ladderIteration_of_clear {k : Nat} (u : F) {ts : List Nat} (hbits : ∀ t ∈ ts, k.testBit t = false) :
    ∃ z, (u ≠ 0 → z ≠ 0) ∧ ts.foldl (ladderIteration k u) (firstRung u) = neutralThenU u z := by
  have : Fact (Nat.Prime P) := ⟨prime_prime⟩
  refine List.foldlRecOn (motive := fun r => ∃ z, (u ≠ 0 → z ≠ 0) ∧ r = neutralThenU u z) ts _ ?_ ?_
  · exact ⟨1, fun _ => one_ne_zero, firstRung_eq_neutralThenU u⟩
  · rintro _ ⟨z, hz, rfl⟩ t ht
    exact ⟨nextDenominator u z, fun hu => nextDenominator_ne_zero hu (hz hu),
      ladderIteration_neutralThenU_of_clear (hbits t ht) u z⟩

theorem ladder_of_k_zero (u : F) : ladder 0 u = 0 := by
  obtain ⟨z, -, hfold⟩ := foldl_ladderIteration_of_clear u fun t (_ : t ∈ (List.range 255).reverse) =>
    Nat.zero_testBit t
  rw [ladder_eq_affineX2, hfold, affineX2, neutralThenU, inv_of_zero, mul_zero]

/-- Settles O21: the ladder's value is 0 in both cases, and only the string 0 encodes it. -/
theorem ladderOfZeroIsZero : Obligations.LadderOfZeroIsZero := by
  unfold Obligations.LadderOfZeroIsZero
  intro rd ra rb s hzero
  have hvalue : ladder (s.reg ra).toNat (readFe s rb) = 0 := by
    obtain hu | hk := hzero
    · rw [(readFe_eq_zero_iff s rb).mpr hu, ladder_of_u_zero]
    · rw [← ladder_low255, hk, ladder_of_k_zero]
  obtain ⟨t, ht, hholds⟩ := exists_next_holds_ladder rd ra rb s
  rw [hvalue] at hholds
  exact ⟨t, ht, reg_eq_zero_of_holds hholds⟩

/-- The last position of the loop is 0, and every one before it is a successor. -/
theorem reverse_range_succ (n : Nat) :
    (List.range (n + 1)).reverse = ((List.range n).map Nat.succ).reverse ++ [0] := by
  rw [List.range_succ_eq_map, List.reverse_cons]

theorem ladder_of_k_one (u : F) : ladder 1 u = u := by
  have hclear : ∀ t ∈ ((List.range 254).map Nat.succ).reverse, Nat.testBit 1 t = false := fun t ht => by
    obtain ⟨n, -, rfl⟩ := List.mem_map.mp (List.mem_reverse.mp ht)
    exact Bool.eq_false_iff.mpr fun h => Nat.succ_ne_zero n (Nat.testBit_one_eq_true_iff_self_eq_zero.mp h)
  obtain ⟨z, hz, hfold⟩ := foldl_ladderIteration_of_clear u hclear
  rw [ladder_eq_affineX2, reverse_range_succ, List.foldl_append, hfold, List.foldl_cons, List.foldl_nil]
  exact affineX2_ladderIteration_neutralThenU_of_set rfl hz

/-- Settles O22: bits 254 to 1 are clear and bit 0 is set, so the value is u, which is written reduced. -/
theorem ladderByOneReturnsU : Obligations.LadderByOneReturnsU := by
  unfold Obligations.LadderByOneReturnsU
  intro rd ra rb s hone
  have hvalue : ladder (s.reg ra).toNat (readFe s rb) = (low255 s rb % P : Nat) := by
    rw [hone, ZMod.natCast_mod]
    exact ladder_of_k_one _
  obtain ⟨t, ht, hholds⟩ := exists_next_holds_ladder rd ra rb s
  rw [hvalue] at hholds
  exact ⟨t, ht, toNat_of_holds hholds (Nat.mod_lt _ (by decide))⟩

end Sys2Proof.Machine
end

section
/-! PROOFS. The statement about HSALSA (43_hsalsa20.md), after the facts it rests on: the 16-word state read as a
matrix, the quarter-round as the update of one line of it, and the two rounds as one operation on the rows or on the
columns. -/

namespace Sys2Proof.Machine

open Sys2Proof.Reference

/-! The state as a matrix (43_hsalsa20.md R163). -/

/-- The position of the word in row i and column j of the matrix (43_hsalsa20.md R163). -/
def cell (i j : Fin 4) : Fin 16 := ⟨4 * i.val + j.val, by omega⟩

theorem cell_injective2 : Function.Injective2 cell := by
  intro i k j l h
  have hval : 4 * i.val + j.val = 4 * k.val + l.val := congrArg Fin.val h
  constructor <;> apply Fin.ext <;> omega

/-- The words of the state at sixteen positions, laid out as a matrix. -/
def wordsAt (c : Fin 4 → Fin 4 → Fin 16) (x : SalsaState) : Matrix4 := fun i j => x[c i j]

/-- The initial state is the one of the matrix form (43_hsalsa20.md R161). -/
theorem wordsAt_cell_salsaInit (k : Bytes32) : wordsAt cell (salsaInit k) = initial k := by
  simp only [salsaInit, wordAt_eq_ofNat]
  funext i j
  fin_cases i <;> fin_cases j <;> rfl

/-! One round (43_hsalsa20.md R162, R163). -/

/-- A quarter-round on the words of line j replaces that line of the matrix by its quarter-round and leaves the other
three alone (43_hsalsa20.md R162). -/
theorem wordsAt_quarterRound {c : Fin 4 → Fin 4 → Fin 16} (hc : Function.Injective2 c) (x : SalsaState) (j : Fin 4) :
    wordsAt c (quarterRound (c j 0) (c j 1) (c j 2) (c j 3) x) =
      Function.update (wordsAt c x) j (quarter (wordsAt c x j)) := by
  have hne : ∀ {k l : Fin 4}, k ≠ l → c j k ≠ c j l := fun h e => h (hc e).2
  funext i k
  rw [wordsAt, quarterRound_get (hne (by decide)) (hne (by decide)) (hne (by decide)) (hne (by decide))
    (hne (by decide)) (hne (by decide)) x (c i k) rfl rfl rfl rfl]
  simp only [hc.eq_iff, rotl32_eq _ (show 7 < 32 by decide), rotl32_eq _ (show 9 < 32 by decide),
    rotl32_eq _ (show 13 < 32 by decide), rotl32_eq _ (show 18 < 32 by decide)]
  by_cases hi : i = j
  · subst hi
    rw [Function.update_self]
    fin_cases k <;> simp [quarter, wordsAt]
  · rw [Function.update_of_ne hi]
    simp [hi, wordsAt]

/-- A round of four quarter-rounds, the i-th on line i of the matrix from its diagonal word on (43_hsalsa20.md
R163). -/
def diagonalRound (c : Fin 4 → Fin 4 → Fin 16) (x : SalsaState) : SalsaState :=
  [0, 1, 2, 3].foldl (fun x i => quarterRound (c i (i + 0)) (c i (i + 1)) (c i (i + 2)) (c i (i + 3)) x) x

theorem rowRound_eq_diagonalRound (x : SalsaState) : rowRound x = diagonalRound cell x := rfl

theorem columnRound_eq_diagonalRound (x : SalsaState) :
    columnRound x = diagonalRound (fun i j => cell j i) x := rfl

/-- Lines that start at the diagonal cover the same sixteen positions. -/
theorem injective2_fromDiagonal {c : Fin 4 → Fin 4 → Fin 16} (hc : Function.Injective2 c) :
    Function.Injective2 fun i k => c i (i + k) := by
  intro i j k l h
  obtain ⟨hij, hkl⟩ := hc h
  subst hij
  exact ⟨rfl, add_left_cancel hkl⟩

/-- The four quarter-rounds of a round work on different lines, so each sees the words before the round. -/
theorem wordsAt_diagonalRound {c : Fin 4 → Fin 4 → Fin 16} (hc : Function.Injective2 c) (x : SalsaState) :
    wordsAt (fun i k => c i (i + k)) (diagonalRound c x) = fun i => quarter (fun k => wordsAt c x i (i + k)) := by
  have hline := wordsAt_quarterRound (injective2_fromDiagonal hc)
  simp only [diagonalRound, List.foldl_cons, List.foldl_nil, hline]
  funext i
  fin_cases i <;> rfl

/-- A round from the diagonal is the row round of the matrix (43_hsalsa20.md R163). -/
theorem wordsAt_diagonalRound_eq_rows {c : Fin 4 → Fin 4 → Fin 16} (hc : Function.Injective2 c) (x : SalsaState) :
    wordsAt c (diagonalRound c x) = rows (wordsAt c x) := by
  funext i j
  calc wordsAt c (diagonalRound c x) i j
      = wordsAt (fun i k => c i (i + k)) (diagonalRound c x) i (j - i) := by simp only [wordsAt, add_sub_cancel]
    _ = rows (wordsAt c x) i j := by rw [wordsAt_diagonalRound hc, rows]

theorem wordsAt_cell_rowRound (x : SalsaState) : wordsAt cell (rowRound x) = rows (wordsAt cell x) := by
  rw [rowRound_eq_diagonalRound, wordsAt_diagonalRound_eq_rows cell_injective2]

/-- The column round is the row round of the transposed matrix (43_hsalsa20.md R163). -/
theorem wordsAt_cell_columnRound (x : SalsaState) : wordsAt cell (columnRound x) = columns (wordsAt cell x) := by
  have htranspose : Function.Injective2 fun i j => cell j i := fun _ _ _ _ h => (cell_injective2 h).symm
  funext i j
  rw [columnRound_eq_diagonalRound]
  exact congrFun (congrFun (wordsAt_diagonalRound_eq_rows htranspose x) j) i

/-! The core (43_hsalsa20.md R163, R164). -/

theorem wordsAt_cell_doubleRounds (n : Nat) (x : SalsaState) :
    wordsAt cell (doubleRounds n x) = (fun m => rows (columns m))^[n] (wordsAt cell x) := by
  induction n generalizing x with
  | zero => rfl
  | succ n ih =>
    rw [doubleRounds, ih, doubleRound, wordsAt_cell_rowRound, wordsAt_cell_columnRound, Function.iterate_succ_apply]

/-- HSalsa20 of the model is that of the matrix form (43_hsalsa20.md R164). -/
theorem hsalsa20_toNat (k : Bytes32) : (hsalsa20 k).toNat = hsalsa k := by
  rw [hsalsa20, salsaOutput, joinWords_toNat, hsalsa, ← wordsAt_cell_salsaInit, ← wordsAt_cell_doubleRounds]
  rfl

theorem exec_hsalsa (rd ra : DReg) (s : State) :
    exec (.hsalsa rd ra) s = finishReg rd (hsalsa20 (s.reg ra)) s := rfl

/-- Settles O23: the register written holds HSalsa20 of the key, by `hsalsa20_toNat`. -/
theorem hsalsaWritesTenDoubleRounds : Obligations.HsalsaWritesTenDoubleRounds := by
  unfold Obligations.HsalsaWritesTenDoubleRounds
  refine ⟨encodedAs_build .hsalsa rfl fun _ _ _ => rfl, fun rd ra s => ?_⟩
  obtain ⟨t, ht, hreg, hsucceeds⟩ := finishReg_spec rd (hsalsa20 (s.reg ra)) s
  rw [exec_hsalsa, ← hsalsa20_toNat]
  exact ⟨t, ht, congrArg BitVec.toNat hreg, hsucceeds⟩

end Sys2Proof.Machine
end

section
/-! PROOFS. The statements about the key-agreement commands (44_facade.md) and about what a command's result depends
on, after the facts they rest on: the clamp, what a command that writes one register leaves in it, and which registers
an operand's reading depends on. -/

namespace Sys2Proof.Machine

open Sys2Proof.Reference

/-! The clamp (44_facade.md R170). -/

/-- The 256 bits of the clamp are determined, so it is the only string that is one. -/
theorem clampOf_iff {c b : Bytes32} : ClampOf c b ↔ c = clampBytes b := by
  constructor
  · intro h
    exact BitVec.eq_of_getLsbD_eq fun j hj => (h j hj).trans (getLsbD_clampBytes b hj).symm
  · rintro rfl j hj
    exact getLsbD_clampBytes b hj

/-- A clamped key is its own clamp: the bits that the clamp sets do not depend on the key. -/
@[simp] theorem clampBytes_clampBytes (b : Bytes32) : clampBytes (clampBytes b) = clampBytes b := by
  refine (clampOf_iff.mp fun j hj => ?_).symm
  rw [getLsbD_clampBytes b hj]
  split_ifs <;> rfl

theorem publicKey_clampBytes (k : Bytes32) : publicKey (clampBytes k) = publicKey k := by
  rw [publicKey, clampBytes_clampBytes, publicKey]

theorem sharedKey_clampBytes (k u : Bytes32) : sharedKey (clampBytes k) u = sharedKey k u := by
  rw [sharedKey, clampBytes_clampBytes, sharedKey]

/-! What a command leaves that writes one register (10_state.md R26; 60_exceptions.md R210). -/

/-- The state after a command that writes the string v to D[i]. -/
def State.afterReg (s : State) (i : DReg) (v : Bytes32) : State := (s.setReg i v).completeOk

@[simp] theorem afterReg_reg_self (s : State) (i : DReg) (v : Bytes32) : (s.afterReg i v).reg i = v := by
  rw [State.afterReg, completeOk_reg, setReg_reg_self]

theorem afterReg_reg_ne (s : State) {i j : DReg} (v : Bytes32) (h : j ≠ i) : (s.afterReg i v).reg j = s.reg j := by
  rw [State.afterReg, completeOk_reg, setReg_reg_ne _ _ _ _ h]

theorem succeeds_afterReg (s : State) (i : DReg) (v : Bytes32) : Succeeds [i] s (s.afterReg i v) := by
  obtain ⟨t, ht, -, hsucceeds⟩ := finishReg_spec i v s
  cases ht
  exact hsucceeds

/-! The commands of this family, each by the string it writes (44_facade.md R171–R174). -/

theorem exec_clamp (rd ra : DReg) (s : State) :
    exec (.clamp rd ra) s = .next (s.afterReg rd (clampBytes (s.reg ra))) := rfl

theorem exec_keygen (rd : DReg) (s : State) :
    exec (.keygen rd) s = .next (s.draw.2.afterReg rd (clampBytes (Config.rng s.draws))) := rfl

theorem exec_derivepub (rd ra : DReg) (s : State) :
    exec (.derivepub rd ra) s = .next (s.afterReg rd (publicKey (s.reg ra))) := rfl

theorem exec_deriveshared (rd ra rb : DReg) (s : State) :
    exec (.deriveshared rd ra rb) s = .next (s.afterReg rd (sharedKey (s.reg ra) (s.reg rb))) := rfl

/-- Settles O24: the register written holds the clamp of the source. -/
theorem clampChangesOnlyItsBits : Obligations.ClampChangesOnlyItsBits := by
  unfold Obligations.ClampChangesOnlyItsBits
  refine ⟨encodedAs_build .clamp rfl fun _ _ _ => rfl, fun rd ra s => ⟨_, exec_clamp rd ra s, ?_,
    succeeds_afterReg s rd _⟩⟩
  exact clampOf_iff.mpr (afterReg_reg_self s rd _)

/-- Settles O25: the draw changes the counter alone, so the frame is that of writing one register. -/
theorem keygenWritesClampedDraw : Obligations.KeygenWritesClampedDraw := by
  unfold Obligations.KeygenWritesClampedDraw
  refine ⟨encodedAs_build .keygen rfl fun _ _ _ => rfl, fun rd s => ?_⟩
  obtain ⟨hok, ⟨hregs, hie, herr, haccerr, hpend, hturns, hresp⟩, hdraws⟩ :=
    succeeds_afterReg s.draw.2 rd (clampBytes (Config.rng s.draws))
  exact ⟨_, exec_keygen rd s, clampOf_iff.mpr (afterReg_reg_self _ rd _), hok,
    ⟨hregs, hie, herr, haccerr, hpend, hturns, hresp⟩, hdraws⟩

/-! DERIVEPUB against the unit commands (44_facade.md R173). -/

/-- ToU of an extended point of the model is the quotient over GF(p) (41_edwards.md R129). -/
theorem toF_toU (p : Extended) :
    toF (toU p.toProjective) = (p.toPoint.Z + p.toPoint.Y) * inv (p.toPoint.Z - p.toPoint.Y) := by
  simp [toU, Extended.toProjective, Extended.toPoint]

/-- The public key's register holds the quotient for BaseMul of the clamped key. -/
theorem holds_publicKey {t : State} {rd : DReg} {k : Bytes32} {q : Point} (h : t.reg rd = publicKey k)
    (hq : q = Reference.baseMul (clampBytes k).toNat) : Holds t rd ((q.Z + q.Y) * inv (q.Z - q.Y)) := by
  rw [hq, ← toPoint_baseMul, ← toF_toU]
  exact holds_of_reg_eq_enc h

/-- A point register just written reads back as the point, in projective form (10_state.md R24, R27). -/
theorem finishExtended_projectiveReg (d : PReg) (p : Extended) (s : State) :
    ∃ t, finishExtended d p s = .next t ∧ t.projectiveReg d = p.toProjective := by
  obtain ⟨t, ht, hslot, -⟩ := finishPoint_spec d (enc p.x) (enc p.y) (enc p.z) (enc p.t) s
  refine ⟨t, ht, ?_⟩
  simp [State.projectiveReg, State.fieldReg, hslot, Extended.toProjective]

/-- Settles O26: PBASEMUL's point reads back exactly, so PTOU encodes the same field element as DERIVEPUB. -/
theorem derivepubEqualsUnitCommands : Obligations.DerivepubEqualsUnitCommands := by
  unfold Obligations.DerivepubEqualsUnitCommands
  refine ⟨encodedAs_build .derivepub rfl fun _ _ _ => rfl, fun rd ra rc re d s => ?_⟩
  have hreg := afterReg_reg_self s rd (publicKey (s.reg ra))
  obtain ⟨t2, ht2, hproj⟩ := finishExtended_projectiveReg d (baseMul (sc (clampBytes (s.reg ra))))
    (s.afterReg rc (clampBytes (s.reg ra)))
  refine ⟨_, _, t2, _, exec_derivepub rd ra s, fun c hc q hq => ?_, exec_clamp rc ra s, ?_, exec_ptou_num re d t2, ?_,
    succeeds_afterReg s rd _⟩
  · exact holds_publicKey hreg (clampOf_iff.mp hc ▸ hq)
  · rw [exec_pbasemul_num, State.scalarReg, afterReg_reg_self, ht2]
  · rw [hreg, completeOk_reg, setReg_reg_self, hproj, publicKey]

/-! DERIVESHARED against the unit commands (44_facade.md R174). -/

/-- Settles O27: with the peer's register kept by CLAMP, each unit command writes the next stage of the shared key. -/
theorem derivesharedEqualsUnitCommands : Obligations.DerivesharedEqualsUnitCommands := by
  unfold Obligations.DerivesharedEqualsUnitCommands
  refine ⟨encodedAs_build .deriveshared rfl fun _ _ _ => rfl, fun rd ra rb rc re rf s hne => ?_⟩
  have hreg := afterReg_reg_self s rd (sharedKey (s.reg ra) (s.reg rb))
  refine ⟨_, _, _, _, exec_deriveshared rd ra rb s, fun c hc => ?_, exec_clamp rc ra s, exec_ladder re rc rb _,
    exec_hsalsa rf re _, ?_, succeeds_afterReg s rd _⟩
  · have hfn : toF (ladderFn c.toNat (s.fieldReg rb)) = ladder c.toNat (readFe s rb) := by
      rw [toF_ladderFn, toF_fieldReg]
    refine ⟨enc (ladderFn c.toNat (s.fieldReg rb)), ?_, enc_lt _, ?_⟩
    · rw [enc_toNat, ← hfn, toF]
    · rw [hreg, ← hsalsa20_toNat, clampOf_iff.mp hc]
      rfl
  · rw [hreg, completeOk_reg, setReg_reg_self, afterField_reg_self, State.scalarReg, State.fieldReg, afterReg_reg_self,
      afterReg_reg_ne s _ hne.symm, sharedKey]

/-- Settles O28: the keys of a clamped key are those of the raw one, since clamping twice is clamping once. -/
theorem facadeClampsACopy : Obligations.FacadeClampsACopy := by
  unfold Obligations.FacadeClampsACopy
  intro rd ra rb rc s hne
  refine ⟨_, _, _, _, _, exec_clamp rc ra s, exec_derivepub rd ra s, exec_derivepub rd rc _,
    exec_deriveshared rd ra rb s, exec_deriveshared rd rc rb _, ?_, ?_⟩
  · rw [afterReg_reg_self, afterReg_reg_self, afterReg_reg_self, publicKey_clampBytes]
  · rw [afterReg_reg_self, afterReg_reg_self, afterReg_reg_self, afterReg_reg_ne s _ hne.symm, sharedKey_clampBytes]

end Sys2Proof.Machine
end

section
/-! PROOFS. The statement about what a command's result depends on (44_facade.md R177), after the facts it rests on:
which registers an operand's reading depends on, and that a command's ending writes its values whatever the state. -/

namespace Sys2Proof.Machine

open Sys2Proof.Reference

/-! A reading is determined by the registers it reads (10_state.md R22, R24, R25). -/

section
variable {s s' : State}

theorem fieldReg_congr {i : DReg} (h : s.reg i = s'.reg i) : s.fieldReg i = s'.fieldReg i := congrArg fe h

theorem scalarReg_congr {i : DReg} (h : s.reg i = s'.reg i) : s.scalarReg i = s'.scalarReg i := congrArg sc h

theorem extendedReg_congr {n : PReg} (h : ∀ k, s.reg (slot n k) = s'.reg (slot n k)) :
    s.extendedReg n = s'.extendedReg n := by
  simp only [State.extendedReg, fieldReg_congr (h _)]

/-- A projective reading does not read slot 3 (10_state.md R24). -/
theorem projectiveReg_congr {n : PReg} (h : ∀ k : Fin 4, k.val < 3 → s.reg (slot n k) = s'.reg (slot n k)) :
    s.projectiveReg n = s'.projectiveReg n := by
  rw [State.projectiveReg, fieldReg_congr (h 0 (by decide)), fieldReg_congr (h 1 (by decide)),
    fieldReg_congr (h 2 (by decide)), State.projectiveReg]

/-- A precomputed reading does not read slot 3 (10_state.md R25). -/
theorem precomputedReg_congr {n : PReg} (h : ∀ k : Fin 4, k.val < 3 → s.reg (slot n k) = s'.reg (slot n k)) :
    s.precomputedReg n = s'.precomputedReg n := by
  rw [State.precomputedReg, fieldReg_congr (h 0 (by decide)), fieldReg_congr (h 1 (by decide)),
    fieldReg_congr (h 2 (by decide)), State.precomputedReg]

/-- ToU reads neither X nor T (41_edwards.md R129). -/
theorem toU_projectiveReg_congr {n : PReg}
    (h : ∀ k : Fin 4, k.val = 1 ∨ k.val = 2 → s.reg (slot n k) = s'.reg (slot n k)) :
    toU (s.projectiveReg n) = toU (s'.projectiveReg n) := by
  simp only [toU, State.projectiveReg, fieldReg_congr (h 1 (by decide)), fieldReg_congr (h 2 (by decide))]

end

/-! Slots among the sources of a command (10_state.md R23). -/

theorem slot_div_four (n : PReg) (k : Fin 4) : (slot n k).val / 4 = (num n).val := by
  simp only [slot_val, num]
  omega

theorem slot_mod_four (n : PReg) (k : Fin 4) : (slot n k).val % 4 = k.val := by
  simp only [slot_val]
  omega

/-! Results that agree. -/

/-- Both are next states, and these hold the same strings in the registers `ds`. -/
def AgreeOn (ds : List DReg) (r r' : Result) : Prop :=
  ∃ t t', r = .next t ∧ r' = .next t' ∧ ∀ j ∈ ds, t.reg j = t'.reg j

theorem finishReg_agreeOn {i : DReg} {v v' : Bytes32} (hv : v = v') (s s' : State) :
    AgreeOn [i] (finishReg i v s) (finishReg i v' s') := by
  refine ⟨_, _, finishReg_next i v s, finishReg_next i v' s', fun j hj => ?_⟩
  rw [List.mem_singleton.mp hj, completeOk_reg, setReg_reg_self, completeOk_reg, setReg_reg_self, hv]

theorem finishPoint_agreeOn (n : PReg) (a b c e : Bytes32) (s s' : State) :
    AgreeOn (quad n) (finishPoint n a b c e s) (finishPoint n a b c e s') := by
  refine ⟨_, _, finishPoint_next n a b c e s, finishPoint_next n a b c e s', fun j hj => ?_⟩
  obtain ⟨k, rfl⟩ := mem_quad_iff.mp hj
  rw [completeOk_reg, setPoint_slot, completeOk_reg, setPoint_slot]

/-- Two runs of a command that end by writing the same extended point agree on its slots. -/
theorem agreeOn_of_extended {i : Instr} {s s' : State} {d : PReg} {p p' : Extended} (hdests : dests i = quad d)
    (hexec : exec i s = finishExtended d p s) (hexec' : exec i s' = finishExtended d p' s') (hp : p = p') :
    AgreeOn (dests i) (exec i s) (exec i s') := by
  rw [hdests, hexec, hexec', hp]
  exact finishPoint_agreeOn d _ _ _ _ s s'

/-- A well-formed command other than KEYGEN leaves the same destinations from states that agree on its sources: the
operands it reads are equal, so the values it writes are. -/
theorem exec_agreeOn_dests {i : Instr} {s s' : State} (hwf : i.wf = true) (hne : ∀ rd, i ≠ .keygen rd)
    (h : ∀ r ∈ sources i, s.reg r = s'.reg r) : AgreeOn (dests i) (exec i s) (exec i s') := by
  cases i with
  | keygen rd => exact absurd rfl (hne rd)
  | fadd rd ra rb | fsub rd ra rb | fmul rd ra rb | ladder rd ra rb | deriveshared rd ra rb =>
    have ha := h ra (by simp [sources])
    have hb := h rb (by simp [sources])
    exact finishReg_agreeOn (by simp only [scalarReg_congr ha, fieldReg_congr ha, fieldReg_congr hb, ha, hb]) s s'
  | finv rd ra | fcanon rd ra | hsalsa rd ra | clamp rd ra | derivepub rd ra =>
    have ha := h ra (by simp [sources])
    exact finishReg_agreeOn (by simp only [fieldReg_congr ha, ha]) s s'
  | pldi rd =>
    obtain ⟨d, rfl⟩ := legal_iff_exists_num.mp hwf
    exact agreeOn_of_extended (filter_div_four_eq_quad d) (exec_pldi_num d s) (exec_pldi_num d s') rfl
  | pldb rd =>
    obtain ⟨d, rfl⟩ := legal_iff_exists_num.mp hwf
    exact agreeOn_of_extended (filter_div_four_eq_quad d) (exec_pldb_num d s) (exec_pldb_num d s') rfl
  | padd rd ra rb =>
    simp only [Instr.wf, Bool.and_eq_true, legal_iff_exists_num] at hwf
    obtain ⟨⟨⟨d, rfl⟩, a, rfl⟩, b, rfl⟩ := hwf
    have ha := extendedReg_congr (n := a) fun k => h _ (by simp [sources, slot_div_four, -slot_val])
    have hb := extendedReg_congr (n := b) fun k => h _ (by simp [sources, slot_div_four, -slot_val])
    exact agreeOn_of_extended (filter_div_four_eq_quad d) (exec_padd_num d a b s) (exec_padd_num d a b s')
      (by rw [ha, hb])
  | pmadd rd ra rb =>
    simp only [Instr.wf, Bool.and_eq_true, legal_iff_exists_num] at hwf
    obtain ⟨⟨⟨d, rfl⟩, a, rfl⟩, b, rfl⟩ := hwf
    have ha := extendedReg_congr (n := a) fun k => h _ (by simp [sources, slot_div_four, -slot_val])
    have hb := precomputedReg_congr (n := b) fun k hk =>
      h _ (by simp [sources, slot_div_four, slot_mod_four, hk, -slot_val])
    exact agreeOn_of_extended (filter_div_four_eq_quad d) (exec_pmadd_num d a b s) (exec_pmadd_num d a b s')
      (by rw [ha, hb])
  | pdbl rd ra =>
    simp only [Instr.wf, Bool.and_eq_true, legal_iff_exists_num] at hwf
    obtain ⟨⟨d, rfl⟩, a, rfl⟩ := hwf
    have ha := projectiveReg_congr (n := a) fun k hk =>
      h _ (by simp [sources, slot_div_four, slot_mod_four, hk, -slot_val])
    exact agreeOn_of_extended (filter_div_four_eq_quad d) (exec_pdbl_num d a s) (exec_pdbl_num d a s') (by rw [ha])
  | ptopre rd ra =>
    simp only [Instr.wf, Bool.and_eq_true, legal_iff_exists_num] at hwf
    obtain ⟨⟨d, rfl⟩, a, rfl⟩ := hwf
    have ha := projectiveReg_congr (n := a) fun k hk =>
      h _ (by simp [sources, slot_div_four, slot_mod_four, hk, -slot_val])
    rw [dests, filter_div_four_eq_quad, exec_ptopre_num, exec_ptopre_num, ha]
    exact finishPoint_agreeOn d _ _ _ _ s s'
  | ptou rd ra =>
    obtain ⟨a, rfl⟩ := legal_iff_exists_num.mp hwf
    have ha := toU_projectiveReg_congr (n := a) fun k hk =>
      h _ (by simp [sources, slot_div_four, slot_mod_four, hk, -slot_val])
    rw [exec_ptou_num, exec_ptou_num]
    exact finishReg_agreeOn (congrArg enc ha) s s'
  | pbasemul rd ra =>
    obtain ⟨d, rfl⟩ := legal_iff_exists_num.mp hwf
    have ha := h ra (by simp [sources])
    exact agreeOn_of_extended (filter_div_four_eq_quad d) (exec_pbasemul_num d ra s) (exec_pbasemul_num d ra s')
      (by rw [scalarReg_congr ha])

/-- Settles O31: the values written are functions of the operands read. -/
theorem resultsDependOnSourcesAlone : Obligations.ResultsDependOnSourcesAlone := by
  unfold Obligations.ResultsDependOnSourcesAlone
  intro i s s' hwf hne h
  exact exec_agreeOn_dests hwf hne h

end Sys2Proof.Machine
end

section
/-! PROOFS. The statements about completions and errors (60_exceptions.md), after the facts they rest on: the frame of a
well-formed command, the error completion of an ill-formed one, and the decoder's checks on each row of the opcode
table. -/

namespace Sys2Proof.Machine

open Sys2Proof.Reference

/-! The frame of a well-formed command (60_exceptions.md R203, R210). -/

/-- The result is a successful completion that changes no register but `ds`. -/
def CompletesWithin (ds : List DReg) (s : State) (r : Result) : Prop :=
  ∃ t, r = .next t ∧ CompletedOk t ∧ FrameOutside ds s t

theorem finishReg_completesWithin (i : DReg) (v : Bytes32) (s : State) :
    CompletesWithin [i] s (finishReg i v s) := by
  obtain ⟨t, ht, -, hok, hframe, -⟩ := finishReg_spec i v s
  exact ⟨t, ht, hok, hframe⟩

theorem finishPoint_completesWithin (n : PReg) (a b c e : Bytes32) (s : State) :
    CompletesWithin (quad n) s (finishPoint n a b c e s) := by
  obtain ⟨t, ht, -, hok, hframe, -⟩ := finishPoint_spec n a b c e s
  exact ⟨t, ht, hok, hframe⟩

/-- A random draw stays within every frame: it moves the draw counter alone (10_state.md R36). -/
theorem CompletesWithin.of_draw {ds : List DReg} {s : State} {r : Result} (h : CompletesWithin ds s.draw.2 r) :
    CompletesWithin ds s r := by
  obtain ⟨t, ht, hok, hregs, hie, herr, haccerr, hpend, hturns, hresp⟩ := h
  exact ⟨t, ht, hok, hregs, hie, herr, haccerr, hpend, hturns, hresp⟩

/-- A well-formed command completes within its destinations: a point command's are the slots of the register that its
RD field names. -/
theorem exec_completesWithin_dests {i : Instr} (hwf : i.wf = true) (s : State) :
    CompletesWithin (dests i) s (exec i s) := by
  cases i with
  | fadd | fsub | fmul | finv | fcanon | ladder | hsalsa | clamp | derivepub | deriveshared =>
    exact finishReg_completesWithin _ _ s
  | keygen rd => exact (finishReg_completesWithin rd _ s.draw.2).of_draw
  | pldi rd | pldb rd | pbasemul rd ra =>
    obtain ⟨d, rfl⟩ := legal_iff_exists_num.mp hwf
    simp only [dests, filter_div_four_eq_quad, exec_pldi_num, exec_pldb_num, exec_pbasemul_num]
    exact finishPoint_completesWithin d _ _ _ _ s
  | ptou rd ra =>
    obtain ⟨a, rfl⟩ := legal_iff_exists_num.mp hwf
    rw [exec_ptou_num]
    exact finishReg_completesWithin rd _ s
  | padd rd ra rb | pmadd rd ra rb =>
    simp only [Instr.wf, Bool.and_eq_true, legal_iff_exists_num] at hwf
    obtain ⟨⟨⟨d, rfl⟩, a, rfl⟩, b, rfl⟩ := hwf
    simp only [dests, filter_div_four_eq_quad, exec_padd_num, exec_pmadd_num]
    exact finishPoint_completesWithin d _ _ _ _ s
  | pdbl rd ra | ptopre rd ra =>
    simp only [Instr.wf, Bool.and_eq_true, legal_iff_exists_num] at hwf
    obtain ⟨⟨d, rfl⟩, a, rfl⟩ := hwf
    simp only [dests, filter_div_four_eq_quad, exec_pdbl_num, exec_ptopre_num]
    exact finishPoint_completesWithin d _ _ _ _ s

/-- Settles O29: each of the endings of a well-formed command succeeds and keeps the frame of its destinations. -/
theorem everyCommandCompletesWithinItsFrame : Obligations.EveryCommandCompletesWithinItsFrame := by
  unfold Obligations.EveryCommandCompletesWithinItsFrame
  exact fun i s hwf => exec_completesWithin_dests hwf s

/-! A point field of 4–15 (60_exceptions.md R205). -/

/-- An illegal point field names no point register. -/
theorem pointReg?_of_not_legal {p : PNum} (h : PNum.legal p = false) : pointReg? p = none :=
  pointReg?_of_not_lt (of_decide_eq_false h)

/-- An ill-formed command completes with INVALID_ARGUMENT: one of its point fields names no register (log 10). -/
theorem exec_of_not_wf {i : Instr} (hwf : i.wf = false) (s : State) : exec i s = finishInvalid s := by
  cases i with
  | fadd | fsub | fmul | finv | fcanon | ladder | hsalsa | clamp | keygen | derivepub | deriveshared => cases hwf
  | pldi rd | pldb rd | pbasemul rd ra =>
    simp only [exec, execPldi, execPldb, execPbasemul, pointReg?_of_not_legal hwf]
  | ptou rd ra => simp only [exec, execPtou, pointReg?_of_not_legal hwf]
  | padd rd ra rb | pmadd rd ra rb =>
    simp only [Instr.wf, Bool.and_eq_false_iff] at hwf
    obtain (h | h) | h := hwf <;> simp [exec, execPadd, execPmadd, pointReg?_of_not_legal h]
  | pdbl rd ra | ptopre rd ra =>
    simp only [Instr.wf, Bool.and_eq_false_iff] at hwf
    obtain h | h := hwf <;> simp [exec, execPdbl, execPtopre, pointReg?_of_not_legal h]

/-- The word of an ill-formed command passes the first two checks of the decoder and fails the third
(60_exceptions.md R206). -/
theorem decode_encode_of_not_wf {i : Instr} (hwf : i.wf = false) : decode (encode i) = .error .invalidArgument := by
  obtain ⟨rd, ra, rb, hfit, hi⟩ := i.exists_build
  generalize i.op = op at hfit hi
  subst hi
  obtain ⟨hcode, hrsv⟩ := Laws.RowMatch.packWord_matches op rd ra rb hfit
  obtain ⟨hrd, hra, hrb⟩ := fields_packWord op rd ra rb
  rw [encode_build hfit]
  refine decode_of_bad_point (hcode ▸ opOf?_code op) ((reserved_eq_zero _ _).mp hrsv) ?_
  rw [hrd, hra, hrb, ← build_wf, hwf]

/-- Settles O30: the command and its word fail the same check. -/
theorem pointOutOfRangeReportsInvalidArgument : Obligations.PointOutOfRangeReportsInvalidArgument := by
  unfold Obligations.PointOutOfRangeReportsInvalidArgument
  intro i s hwf
  exact ⟨(exec_of_not_wf hwf s).trans (finishInvalid_eq s), decode_encode_of_not_wf hwf⟩

/-! The completion code of every word (60_exceptions.md R206). -/

/-- The assigned opcodes are the codes of the operations (30_encoding.md R84). -/
theorem mem_assigned_iff {n : Nat} : n ∈ assigned ↔ ∃ op : Op, n = op.code.toNat := by
  constructor
  · intro h
    obtain ⟨op, -, rfl⟩ := List.mem_map.mp (show n ∈ Op.all.map fun op => op.code.toNat from h)
    exact ⟨op, rfl⟩
  · rintro ⟨op, rfl⟩
    cases op <;> decide

/-- A word with an unassigned opcode has no row in the table (30_encoding.md R86). -/
theorem opOf?_opField_eq_none {w : Word} (h : w.toNat % 256 ∉ assigned) : opOf? (opField w) = none := by
  cases hop : opOf? (opField w) with
  | none => rfl
  | some op =>
    refine absurd (mem_assigned_iff.mpr ⟨op, ?_⟩) h
    rw [code_of_opOf? hop, opField_toNat]

/-- The reserved bits of a row start above the fields its format uses (30_encoding.md R82). -/
theorem top_eq_usedFields (op : Op) : op.format.top = 8 + 4 * usedFields op.code.toNat := by
  cases op <;> decide

/-- A point field of 4–15 is one of the fields that the word's format names as point registers. -/
theorem badPoint_iff {n : Nat} {op : Op} (h : n % 256 = op.code.toNat) :
    BadPoint n ↔ ∃ lo ∈ op.format.points, 4 ≤ n / 2 ^ lo % 16 := by
  rw [BadPoint, h]
  cases op <;> simp [Op.code, Op.format, Format.points]

/-- The row of an assigned opcode decides the decoder's other two checks (60_exceptions.md R206). -/
theorem completionCode_of_assigned {w : Word} (h : w.toNat % 256 ∈ assigned) :
    (w.toNat / 2 ^ (8 + 4 * usedFields (w.toNat % 256)) ≠ 0 → completionCode w = 2) ∧
    (w.toNat / 2 ^ (8 + 4 * usedFields (w.toNat % 256)) = 0 → BadPoint w.toNat → completionCode w = 3) ∧
    (w.toNat / 2 ^ (8 + 4 * usedFields (w.toNat % 256)) = 0 → ¬ BadPoint w.toNat → completionCode w = 0) := by
  obtain ⟨op, hop⟩ := mem_assigned_iff.mp h
  obtain ⟨reserved, outOfRange, legal⟩ := encodedWithPoints_build op (top_eq_usedFields op) w hop
  rw [hop]
  refine ⟨fun hrsv => completionCode_of_error (reserved hrsv),
    fun hrsv hbad => completionCode_of_error (outOfRange hrsv ((badPoint_iff hop).mp hbad)),
    fun hrsv hgood => completionCode_of_ok (legal hrsv fun lo hlo => Nat.lt_of_not_le fun hle => ?_)⟩
  exact hgood ((badPoint_iff hop).mpr ⟨lo, hlo, hle⟩)

/-- Settles O35: an unassigned opcode fails the first check, and the row of an assigned one decides the others. -/
theorem completionCodePriority : Obligations.CompletionCodePriority := by
  unfold Obligations.CompletionCodePriority
  intro w
  by_cases h : w.toNat % 256 ∈ assigned
  · obtain ⟨reserved, outOfRange, legal⟩ := completionCode_of_assigned h
    exact ⟨absurd h, fun _ => reserved, fun _ => outOfRange, fun _ => legal⟩
  · exact ⟨fun _ => completionCode_of_error (decode_of_no_op (opOf?_opField_eq_none h)),
      (absurd · h), (absurd · h), (absurd · h)⟩

/-! The engine's turn (60_exceptions.md R204, R210, R211). -/

/-- Settles O39: the engine's step on such a word is the error completion. -/
theorem badWordCompletesWithError : Obligations.BadWordCompletesWithError := by
  unfold Obligations.BadWordCompletesWithError
  intro s e hbusy hdec
  exact ⟨(engineTurn_busy hbusy).trans (engineStep_error hdec), (completionCode_of_error hdec).symm⟩

theorem takeTurn_next (x : Turn) (s : State) : ∃ t, takeTurn x s = .next t := by
  cases x with
  | engine =>
    obtain ⟨t, ht, -⟩ := engineTurn_completes s
    exact ⟨t, ht⟩
  | host | takeIrq | rstN => exact ⟨_, rfl⟩

/-- Settles O40: with no turn left a step is the engine's turn, else the first turn, and every turn answers a state. -/
theorem everyStepAnswersNext : Obligations.EveryStepAnswersNext := by
  unfold Obligations.EveryStepAnswersNext
  intro s
  cases hts : s.turns with
  | nil =>
    rw [step_nil hts]
    exact takeTurn_next .engine s
  | cons x ts =>
    rw [step_cons hts]
    exact takeTurn_next x _

/-- A busy engine's turn sets DONE and leaves IE alone, whether PEND decodes or not. -/
theorem engineTurn_done_ie {s : State} (hb : s.busy = true) :
    ∃ t, engineTurn s = .next t ∧ t.done = true ∧ t.ie = s.ie := by
  rw [engineTurn_busy hb]
  cases hd : decode s.pend with
  | ok i =>
    obtain ⟨t, ht, hok, hframe⟩ := exec_completesWithin_dests (wf_of_decode_ok hd) s
    exact ⟨t, (engineStep_ok hd).trans ht, hok.done, hframe.ie⟩
  | error e => exact ⟨_, engineStep_error hd, rfl, rfl⟩

/-- Settles O57: after the engine's turn DONE is set and IE is as before, so irq is IE. -/
theorem completionRaisesIrqIfEnabled : Obligations.CompletionRaisesIrqIfEnabled := by
  unfold Obligations.CompletionRaisesIrqIfEnabled
  intro s ts hbusy hts
  obtain ⟨t, ht, hdone, hie⟩ := engineTurn_done_ie (s := { s with turns := ts }) hbusy
  refine ⟨t, (step_cons hts).trans ht, ?_, hdone⟩
  rw [State.irq, hdone, hie, Bool.true_and]

end Sys2Proof.Machine
end

section
/-! PROOFS. The statements about resets and hazards (70_reset_and_hazards.md), after the facts they rest on: a turn of
either agent keeps the schedule, and a reset by either source leaves the reset values. -/

namespace Sys2Proof.Machine

open Sys2Proof.Reference

/-! The end of a schedule (70_reset_and_hazards.md R247). -/

/-- The engine's turn leaves the schedule alone: a command that runs, a bad word and an idle engine alike. -/
theorem engineTurn_turns {s t : State} (h : engineTurn s = .next t) : t.turns = s.turns := by
  cases hb : s.busy with
  | false =>
    rw [engineTurn_idle hb] at h
    cases h
    rfl
  | true =>
    rw [engineTurn_busy hb] at h
    cases hd : decode s.pend with
    | ok i =>
      rw [engineStep_ok hd] at h
      exact Ending.turns_eq (h ▸ exec_ending i s)
    | error e =>
      rw [engineStep_error hd] at h
      cases h
      rfl

/-- Every turn leaves the schedule alone: only `step` consumes it. -/
theorem takeTurn_turns {x : Turn} {s t : State} (h : takeTurn x s = .next t) : t.turns = s.turns := by
  cases x with
  | engine => exact engineTurn_turns h
  | takeIrq | rstN => cases h; rfl
  | host act =>
    cases h
    exact (hostAccess_effect act s).turns_eq

/-- A step with turns left consumes the first one and no other. -/
theorem exists_step_of_cons {s : State} {x : Turn} {ts : List Turn} (hts : s.turns = x :: ts) :
    ∃ u, step s = .next u ∧ u.turns = ts := by
  obtain ⟨u, hu⟩ := takeTurn_next x { s with turns := ts }
  exact ⟨u, (step_cons hts).trans hu, takeTurn_turns hu⟩

/-- A step with no turn left is the enabled engine step: it ends idle. -/
theorem exists_step_of_nil {s : State} (hts : s.turns = []) :
    ∃ t, step s = .next t ∧ t.busy = false ∧ t.turns = [] := by
  obtain ⟨t, ht, hidle, -⟩ := engineTurn_completes s
  exact ⟨t, (step_nil hts).trans ht, hidle, (engineTurn_turns ht).trans hts⟩

/-- Settles O44, by induction on the schedule: each step consumes one turn, and the step after the last is the
engine's. -/
theorem everyScheduleEndsIdle : Obligations.EveryScheduleEndsIdle := by
  unfold Obligations.EveryScheduleEndsIdle
  intro s
  generalize hts : s.turns = ts
  induction ts generalizing s with
  | nil =>
    obtain ⟨t, ht, hend⟩ := exists_step_of_nil hts
    exact ⟨t, run_succ_of_step 0 ht, hend⟩
  | cons x ts ih =>
    obtain ⟨u, hu, hrest⟩ := exists_step_of_cons hts
    obtain ⟨t, hrun, hend⟩ := ih u hrest
    exact ⟨t, (run_succ_of_step (ts.length + 1) hu).trans hrun, hend⟩

/-! A reset while a command is pending (70_reset_and_hazards.md R230–R232). -/

/-- A CTRL write with bit 0 set is a reset, answered as taken (10_state.md R29; 70_reset_and_hazards.md R230). -/
theorem takeTurn_softReset {v : Word} (hv : v.getLsbD 0 = true) (s : State) :
    takeTurn (.host (.write ⟨0x008, 4, 0xF⟩ v)) s = .next { s with resp := some .done }.applyReset := by
  rw [takeTurn, hostTurn, hostAccess, hostWrite_ctrl, writeCtrl_of_true s hv]
  rfl

/-- A reset by either source leaves the reset values, whatever the engine was doing. -/
theorem takeTurn_reset {x : Turn} (hx : IsReset x) (s : State) : ∃ t, takeTurn x s = .next t ∧ HasResetValues t := by
  obtain rfl | ⟨v, rfl, hv⟩ := hx
  · exact ⟨_, rfl, applyReset_hasResetValues s⟩
  · exact ⟨_, takeTurn_softReset hv s, applyReset_hasResetValues _⟩

/-- Settles O59: after the reset the engine is idle and its turn does nothing; after the engine's turn the reset clears
what it left. -/
theorem resetDiscardsPendingCommand : Obligations.ResetDiscardsPendingCommand := by
  unfold Obligations.ResetDiscardsPendingCommand
  intro s x _ hx
  constructor
  · obtain ⟨t, ht, h⟩ := takeTurn_reset hx s
    exact ⟨t, ht, engineTurn_idle h.busy, h.reg, h.done, h.busy⟩
  · obtain ⟨t, ht⟩ := takeTurn_next .engine s
    obtain ⟨u, hu, h⟩ := takeTurn_reset hx t
    exact ⟨t, u, ht, hu, h.reg, h.done, h.busy⟩

end Sys2Proof.Machine
end
